-- ==== Sys2Proof/Word.lean ====
section
/-! DEFINITION. The word types of the core and the plain numbers that index its parts (00_scope.md R6–R11, R21). -/

namespace Sys2Proof

/-- A byte: a general register, a timer, a memory cell (00_scope.md R6, R7). -/
abbrev Byte := BitVec 8

/-- A 16-bit word: an instruction word, I, pc, a return address (00_scope.md R8, R9; 30_encoding.md R100). -/
abbrev Word := BitVec 16

/-- The 12-bit address field NNN (30_encoding.md R102). -/
abbrev Addr12 := BitVec 12

/-- The number of a general register, 0..15 (00_scope.md R7; the fields X and Y of 30_encoding.md R102). -/
abbrev RegIdx := Fin 16

/-- The number of a key, 0..15 (00_scope.md R11). -/
abbrev KeyIdx := Fin 16

/-- A display row, 0..31 (00_scope.md R10, R23). -/
abbrev RowIdx := Fin 32

/-- A display column, 0..63 (00_scope.md R10, R23). -/
abbrev ColIdx := Fin 64

/-- VF, the register that doubles as the flag (10_state.md R31). -/
abbrev regVF : RegIdx := 15

/-- V0, the register BNNN adds whatever its fields say (00_scope.md R25). -/
abbrev regV0 : RegIdx := 0

end Sys2Proof
end

