-- ==== Sys2Proof/Config.lean ====
section
/-! DEFINITION. The launch parameters of 00_scope.md R13 and R15–R19 as plain data, with the spec's defaults, and the
free values: the draw RAND (R20) and the choice of KEY_PICK = ANY (42_keys_timers.md R203). -/

namespace Sys2Proof

/-- A memory as plain data: the cells that differ from what an unlisted address reads as, addresses rising
(the canonical form is `Memory.wf`). -/
abbrev Memory := List Host.Cell

/-- SHIFT_SRC: the register 8XY6 and 8XYE shift (00_scope.md R15). -/
inductive ShiftSrc where
  /-- Shift Vy into Vx: the default. -/
  | vy
  /-- Shift Vx in place. -/
  | vx
  deriving DecidableEq, Repr

/-- KEYWAIT_TRIGGER of the FX0A key wait (00_scope.md R18). -/
inductive KeywaitTrigger where
  /-- A held key ends the wait: the default. -/
  | level
  /-- Only a press recorded during the wait ends it. -/
  | pressEdge
  deriving DecidableEq, Repr

/-- KEY_PICK: which pressed key a LEVEL key wait returns (00_scope.md R18, 42_keys_timers.md R203). -/
inductive KeyPick where
  /-- The lowest pressed key: the default. -/
  | lowest
  /-- Any pressed key, a draw under no law. -/
  | any
  deriving DecidableEq, Repr

/-- The parameters fixed for a launch (00_scope.md, "Implementation parameters"). DESIGN CHOICE (log entry 1), safe: they
are carried in the state, so that a statement about every state is a statement about every setting of them. -/
structure Params where
  /-- SHIFT_SRC (R15). -/
  shiftSrc : ShiftSrc
  /-- LOGIC_VF_RESET (R16). -/
  logicVfReset : Bool
  /-- INDEX_INCREMENT (R17). -/
  indexIncrement : Bool
  /-- KEYWAIT_TRIGGER (R18). -/
  keywaitTrigger : KeywaitTrigger
  /-- KEY_PICK (R18). -/
  keyPick : KeyPick
  /-- FONT_BASE (R13). -/
  fontBase : Nat
  /-- FONT, 80 bytes: 16 glyphs of 5 bytes (R13, 20_memory.md R77). -/
  font : List Byte
  /-- MEM_INIT (R19): the bytes that are not 0x00, as cells in rising order. -/
  memInit : Memory
  deriving DecidableEq, Repr

/-- The default FONT table, digit by digit (20_memory.md R77). -/
def standardFont : List Byte :=
  [0xF0, 0x90, 0x90, 0x90, 0xF0] ++ [0x20, 0x60, 0x20, 0x20, 0x70] ++
  [0xF0, 0x10, 0xF0, 0x80, 0xF0] ++ [0xF0, 0x10, 0xF0, 0x10, 0xF0] ++
  [0x90, 0x90, 0xF0, 0x10, 0x10] ++ [0xF0, 0x80, 0xF0, 0x10, 0xF0] ++
  [0xF0, 0x80, 0xF0, 0x90, 0xF0] ++ [0xF0, 0x10, 0x20, 0x40, 0x40] ++
  [0xF0, 0x90, 0xF0, 0x90, 0xF0] ++ [0xF0, 0x90, 0xF0, 0x10, 0xF0] ++
  [0xF0, 0x90, 0xF0, 0x90, 0x90] ++ [0xE0, 0x90, 0xE0, 0x90, 0xE0] ++
  [0xF0, 0x80, 0x80, 0x80, 0xF0] ++ [0xE0, 0x90, 0x90, 0x90, 0xE0] ++
  [0xF0, 0x80, 0xF0, 0x80, 0xF0] ++ [0xF0, 0x80, 0xF0, 0x80, 0x80]

/-- The spec's default of every parameter (00_scope.md R13, R15–R19). DESIGN CHOICE (log entry 2), unsafe for a claim
that names `State.reset`: the source leaves these open, and the defaults are the spec's own. -/
def Params.standard : Params where
  shiftSrc := .vy
  logicVfReset := false
  indexIncrement := false
  keywaitTrigger := .level
  keyPick := .lowest
  fontBase := 0x050
  font := standardFont
  memInit := []

namespace Config

/-- RAND: the byte of the n-th draw (00_scope.md R20, 40_alu.md R143). A free value with no body (log entry 4), safe:
nothing can be proved about it. -/
opaque freeByte : Nat → Byte

/-- The choice of the n-th draw among pressed keys when KEY_PICK = ANY (42_keys_timers.md R203): a position, reduced
modulo the number of pressed keys where it is used. A free value with no body (log entry 4), safe. -/
opaque freePick : Nat → Nat

end Config
end Sys2Proof
end

