-- ==== Sys2Proof/Syntax.lean ====
section
/-! DEFINITION. The instruction set: one constructor per row of spec/opcode_table.json, in the table's order
(30_encoding.md R105). Fields have their own widths (R102), so that every term of this type is an instruction. -/

namespace Sys2Proof

/-- The 34 instructions of 30_encoding.md R105. -/
inductive Instr where
  /-- 00E0 CLS: clear the display (41_display.md R182). -/
  | cls
  /-- 00EE RET: return (43_flow.md R245). -/
  | ret
  /-- 1NNN JP NNN: jump (43_flow.md R243). -/
  | jp (nnn : Addr12)
  /-- 2NNN CALL NNN: call (43_flow.md R244). -/
  | call (nnn : Addr12)
  /-- 3XNN SE Vx, NN: skip if equal (43_flow.md R247). -/
  | seImm (x : RegIdx) (nn : Byte)
  /-- 4XNN SNE Vx, NN: skip if not equal (43_flow.md R248). -/
  | sneImm (x : RegIdx) (nn : Byte)
  /-- 5XY0 SE Vx, Vy: skip if equal (43_flow.md R249). -/
  | seReg (x y : RegIdx)
  /-- 6XNN LD Vx, NN: load immediate (40_alu.md R132). -/
  | ldImm (x : RegIdx) (nn : Byte)
  /-- 7XNN ADD Vx, NN: add immediate (40_alu.md R133). -/
  | addImm (x : RegIdx) (nn : Byte)
  /-- 8XY0 LD Vx, Vy: register move (40_alu.md R134). -/
  | ldReg (x y : RegIdx)
  /-- 8XY1 OR Vx, Vy (40_alu.md R135). -/
  | orReg (x y : RegIdx)
  /-- 8XY2 AND Vx, Vy (40_alu.md R136). -/
  | andReg (x y : RegIdx)
  /-- 8XY3 XOR Vx, Vy (40_alu.md R137). -/
  | xorReg (x y : RegIdx)
  /-- 8XY4 ADD Vx, Vy: add with carry (40_alu.md R138). -/
  | addReg (x y : RegIdx)
  /-- 8XY5 SUB Vx, Vy (40_alu.md R139). -/
  | subReg (x y : RegIdx)
  /-- 8XY6 SHR Vx {, Vy} (40_alu.md R140). -/
  | shr (x y : RegIdx)
  /-- 8XY7 SUBN Vx, Vy (40_alu.md R141). -/
  | subn (x y : RegIdx)
  /-- 8XYE SHL Vx {, Vy} (40_alu.md R142). -/
  | shl (x y : RegIdx)
  /-- 9XY0 SNE Vx, Vy: skip if not equal (43_flow.md R250). -/
  | sneReg (x y : RegIdx)
  /-- ANNN LD I, NNN (44_memory_ops.md R273). -/
  | ldI (nnn : Addr12)
  /-- BNNN JP V0, NNN: jump with offset (43_flow.md R246). -/
  | jpV0 (nnn : Addr12)
  /-- CXNN RND Vx, NN: random (40_alu.md R143). -/
  | rnd (x : RegIdx) (nn : Byte)
  /-- DXYN DRW Vx, Vy, N: draw a sprite (41_display.md R183). -/
  | drw (x y : RegIdx) (n : BitVec 4)
  /-- EX9E SKP Vx: skip if the key is pressed (42_keys_timers.md R204). -/
  | skp (x : RegIdx)
  /-- EXA1 SKNP Vx: skip if the key is not pressed (42_keys_timers.md R205). -/
  | sknp (x : RegIdx)
  /-- FX07 LD Vx, DT (42_keys_timers.md R206). -/
  | ldVxDt (x : RegIdx)
  /-- FX0A LD Vx, K: wait for a key (42_keys_timers.md R200). -/
  | ldVxK (x : RegIdx)
  /-- FX15 LD DT, Vx (42_keys_timers.md R207). -/
  | ldDtVx (x : RegIdx)
  /-- FX18 LD ST, Vx (42_keys_timers.md R208). -/
  | ldStVx (x : RegIdx)
  /-- FX1E ADD I, Vx (44_memory_ops.md R274). -/
  | addI (x : RegIdx)
  /-- FX29 LD F, Vx: font address (44_memory_ops.md R275). -/
  | ldF (x : RegIdx)
  /-- FX33 LD B, Vx: binary-coded decimal (44_memory_ops.md R272). -/
  | ldB (x : RegIdx)
  /-- FX55 LD [I], Vx: store V0..Vx (44_memory_ops.md R270). -/
  | stRegs (x : RegIdx)
  /-- FX65 LD Vx, [I]: load V0..Vx (44_memory_ops.md R271). -/
  | ldRegs (x : RegIdx)
  deriving DecidableEq, Repr

end Sys2Proof
end

