-- ==== Sys2Proof/WellFormed.lean ====
section
/-! DEFINITION. The checks. The operands of `Instr` have their fields' own widths (30_encoding.md R102), so every term of
`Instr` is well formed by its type; what can be ill formed is an instruction WORD (no row of the opcode map matches it,
R106), a MEMORY list (out of its canonical form) and a launch CONFIGURATION (70_reset_and_hazards.md R331). -/

namespace Sys2Proof

/-- A row of the opcode map: op selects it iff `op & mask == fixed` (30_encoding.md R105). -/
structure OpRow where
  /-- The column `match`. -/
  fixed : Word
  /-- The column `mask`. -/
  mask : Word
  deriving DecidableEq, Repr

/-- op selects the row iff `op & mask == match` (30_encoding.md R105). -/
def OpRow.selects (r : OpRow) (op : Word) : Bool := op &&& r.mask == r.fixed

/-- The row of each instruction, as the table of 30_encoding.md R105 writes its match and mask. -/
def Instr.row : Instr → OpRow
  | .cls => ⟨0x00E0, 0xFFFF⟩
  | .ret => ⟨0x00EE, 0xFFFF⟩
  | .jp _ => ⟨0x1000, 0xF000⟩
  | .call _ => ⟨0x2000, 0xF000⟩
  | .seImm _ _ => ⟨0x3000, 0xF000⟩
  | .sneImm _ _ => ⟨0x4000, 0xF000⟩
  | .seReg _ _ => ⟨0x5000, 0xF00F⟩
  | .ldImm _ _ => ⟨0x6000, 0xF000⟩
  | .addImm _ _ => ⟨0x7000, 0xF000⟩
  | .ldReg _ _ => ⟨0x8000, 0xF00F⟩
  | .orReg _ _ => ⟨0x8001, 0xF00F⟩
  | .andReg _ _ => ⟨0x8002, 0xF00F⟩
  | .xorReg _ _ => ⟨0x8003, 0xF00F⟩
  | .addReg _ _ => ⟨0x8004, 0xF00F⟩
  | .subReg _ _ => ⟨0x8005, 0xF00F⟩
  | .shr _ _ => ⟨0x8006, 0xF00F⟩
  | .subn _ _ => ⟨0x8007, 0xF00F⟩
  | .shl _ _ => ⟨0x800E, 0xF00F⟩
  | .sneReg _ _ => ⟨0x9000, 0xF00F⟩
  | .ldI _ => ⟨0xA000, 0xF000⟩
  | .jpV0 _ => ⟨0xB000, 0xF000⟩
  | .rnd _ _ => ⟨0xC000, 0xF000⟩
  | .drw _ _ _ => ⟨0xD000, 0xF000⟩
  | .skp _ => ⟨0xE09E, 0xF0FF⟩
  | .sknp _ => ⟨0xE0A1, 0xF0FF⟩
  | .ldVxDt _ => ⟨0xF007, 0xF0FF⟩
  | .ldVxK _ => ⟨0xF00A, 0xF0FF⟩
  | .ldDtVx _ => ⟨0xF015, 0xF0FF⟩
  | .ldStVx _ => ⟨0xF018, 0xF0FF⟩
  | .addI _ => ⟨0xF01E, 0xF0FF⟩
  | .ldF _ => ⟨0xF029, 0xF0FF⟩
  | .ldB _ => ⟨0xF033, 0xF0FF⟩
  | .stRegs _ => ⟨0xF055, 0xF0FF⟩
  | .ldRegs _ => ⟨0xF065, 0xF0FF⟩

/-- The whole opcode map: the row of one instruction of each constructor, in the table's order (30_encoding.md R105). -/
def opcodeMap : List OpRow :=
  ([.cls, .ret, .jp 0, .call 0, .seImm 0 0, .sneImm 0 0, .seReg 0 0, .ldImm 0 0, .addImm 0 0] ++
   [.ldReg 0 0, .orReg 0 0, .andReg 0 0, .xorReg 0 0, .addReg 0 0, .subReg 0 0, .shr 0 0, .subn 0 0, .shl 0 0] ++
   [.sneReg 0 0, .ldI 0, .jpV0 0, .rnd 0 0, .drw 0 0 0, .skp 0, .sknp 0, .ldVxDt 0, .ldVxK 0, .ldDtVx 0] ++
   [.ldStVx 0, .addI 0, .ldF 0, .ldB 0, .stRegs 0, .ldRegs 0] : List Instr).map Instr.row

/-- A word is well formed when some row of the opcode map selects it; every other word is illegal (30_encoding.md R106). -/
def Word.legal (op : Word) : Bool := opcodeMap.any (·.selects op)

/-- The canonical form of a list of cells from address `lo` on: addresses rise strictly and stay below 4096
(00_scope.md R6), and no cell holds what an unlisted address reads as. -/
def Memory.wfFrom (unlisted : Nat → Byte) : Nat → Memory → Bool
  | _, [] => true
  | lo, (a, v) :: m =>
    decide (lo ≤ a) && decide (a < 4096) && decide (v ≠ unlisted a) && Memory.wfFrom unlisted (a + 1) m

/-- The canonical form of a memory. -/
def Memory.wf (unlisted : Nat → Byte) (m : Memory) : Bool := Memory.wfFrom unlisted 0 m

/-- A launch configuration is well formed: FONT_BASE + 79 ≤ 0xFFF (70_reset_and_hazards.md R331), FONT has 80 bytes
(00_scope.md R13), and MEM_INIT lists bytes of the address space in canonical form. -/
def Params.wf (p : Params) : Bool :=
  decide (p.fontBase + 79 ≤ 0xFFF) && decide (p.font.length = 80) && Memory.wf (fun _ => 0x00) p.memInit

end Sys2Proof
end

