-- ==== Sys2Proof/Decode.lean ====
section
/-! DEFINITION. The instruction decoder, total on words and on bytes (30_encoding.md R100–R108), and after it the encoder,
written from the same table. -/

namespace Sys2Proof

/-- Why bytes are no instruction. -/
inductive DecodeError where
  /-- Fewer than two bytes: every instruction is one 16-bit word (30_encoding.md R100). -/
  | truncated
  /-- The verdict `illegal` on the word op (30_encoding.md R104, R106). -/
  | illegal (op : Word)
  deriving DecidableEq, Repr

/-- X = op[11:8], a register index (30_encoding.md R102). -/
def Word.fieldX (op : Word) : RegIdx := (op.extractLsb' 8 4).toFin

/-- Y = op[7:4], a register index (30_encoding.md R102). -/
def Word.fieldY (op : Word) : RegIdx := (op.extractLsb' 4 4).toFin

/-- N = op[3:0] (30_encoding.md R102). -/
def Word.fieldN (op : Word) : BitVec 4 := op.extractLsb' 0 4

/-- NN = op[7:0] (30_encoding.md R102). -/
def Word.fieldNN (op : Word) : Byte := op.extractLsb' 0 8

/-- NNN = op[11:0] (30_encoding.md R102). -/
def Word.fieldNNN (op : Word) : Addr12 := op.extractLsb' 0 12

/-- High nibble 0x8: the low nibble is the function code, 0x0–0x7 or 0xE (30_encoding.md R104). -/
def decodeAlu (op : Word) : Except DecodeError Instr :=
  match (Word.fieldN op).toNat with
  | 0x0 => .ok (.ldReg (Word.fieldX op) (Word.fieldY op))
  | 0x1 => .ok (.orReg (Word.fieldX op) (Word.fieldY op))
  | 0x2 => .ok (.andReg (Word.fieldX op) (Word.fieldY op))
  | 0x3 => .ok (.xorReg (Word.fieldX op) (Word.fieldY op))
  | 0x4 => .ok (.addReg (Word.fieldX op) (Word.fieldY op))
  | 0x5 => .ok (.subReg (Word.fieldX op) (Word.fieldY op))
  | 0x6 => .ok (.shr (Word.fieldX op) (Word.fieldY op))
  | 0x7 => .ok (.subn (Word.fieldX op) (Word.fieldY op))
  | 0xE => .ok (.shl (Word.fieldX op) (Word.fieldY op))
  | _ => .error (.illegal op)

/-- High nibble 0xF: the low byte is the function byte (30_encoding.md R104). -/
def decodeMisc (op : Word) : Except DecodeError Instr :=
  if Word.fieldNN op = 0x07 then .ok (.ldVxDt (Word.fieldX op))
  else if Word.fieldNN op = 0x0A then .ok (.ldVxK (Word.fieldX op))
  else if Word.fieldNN op = 0x15 then .ok (.ldDtVx (Word.fieldX op))
  else if Word.fieldNN op = 0x18 then .ok (.ldStVx (Word.fieldX op))
  else if Word.fieldNN op = 0x1E then .ok (.addI (Word.fieldX op))
  else if Word.fieldNN op = 0x29 then .ok (.ldF (Word.fieldX op))
  else if Word.fieldNN op = 0x33 then .ok (.ldB (Word.fieldX op))
  else if Word.fieldNN op = 0x55 then .ok (.stRegs (Word.fieldX op))
  else if Word.fieldNN op = 0x65 then .ok (.ldRegs (Word.fieldX op))
  else .error (.illegal op)

/-- `decode(op)` of 30_encoding.md R104: the high nibble first, then what its family asks of the low bits. It reads the
word alone (R108). -/
def decodeWord (op : Word) : Except DecodeError Instr :=
  match (op.extractLsb' 12 4).toNat with
  | 0x0 => if op = 0x00E0 then .ok .cls else if op = 0x00EE then .ok .ret else .error (.illegal op)
  | 0x1 => .ok (.jp (Word.fieldNNN op))
  | 0x2 => .ok (.call (Word.fieldNNN op))
  | 0x3 => .ok (.seImm (Word.fieldX op) (Word.fieldNN op))
  | 0x4 => .ok (.sneImm (Word.fieldX op) (Word.fieldNN op))
  | 0x5 => if Word.fieldN op = 0x0 then .ok (.seReg (Word.fieldX op) (Word.fieldY op)) else .error (.illegal op)
  | 0x6 => .ok (.ldImm (Word.fieldX op) (Word.fieldNN op))
  | 0x7 => .ok (.addImm (Word.fieldX op) (Word.fieldNN op))
  | 0x8 => decodeAlu op
  | 0x9 => if Word.fieldN op = 0x0 then .ok (.sneReg (Word.fieldX op) (Word.fieldY op)) else .error (.illegal op)
  | 0xA => .ok (.ldI (Word.fieldNNN op))
  | 0xB => .ok (.jpV0 (Word.fieldNNN op))
  | 0xC => .ok (.rnd (Word.fieldX op) (Word.fieldNN op))
  | 0xD => .ok (.drw (Word.fieldX op) (Word.fieldY op) (Word.fieldN op))
  | 0xE =>
    if Word.fieldNN op = 0x9E then .ok (.skp (Word.fieldX op))
    else if Word.fieldNN op = 0xA1 then .ok (.sknp (Word.fieldX op))
    else .error (.illegal op)
  | _ => decodeMisc op

/-- The word of two bytes, the one at the lower address in op[15:8] (20_memory.md R75). -/
def wordOfBytes (hi lo : Byte) : Word := hi ++ lo

/-- The byte of a word that lies at the lower address (20_memory.md R75). -/
def Word.hiByte (op : Word) : Byte := op.extractLsb' 8 8

/-- The byte of a word that lies at the higher address (20_memory.md R75). -/
def Word.loByte (op : Word) : Byte := op.extractLsb' 0 8

/-- The decoder on bytes as they lie in memory: the instruction and the bytes after it (30_encoding.md R100). -/
def decode : List Byte → Except DecodeError (Instr × List Byte)
  | hi :: lo :: rest =>
    match decodeWord (wordOfBytes hi lo) with
    | .ok i => .ok (i, rest)
    | .error e => .error e
  | _ => .error .truncated

/-- The four bits of a register field. -/
def RegIdx.bits (x : RegIdx) : BitVec 4 := BitVec.ofFin x

/-- Formats `NNN`, `XNN`, `XYN` and `XFF` of 30_encoding.md R101, from the high nibble down. -/
def wordNNN (hi : BitVec 4) (nnn : Addr12) : Word := hi ++ nnn

/-- Formats `XNN` and `XFF` (30_encoding.md R101): the low byte is NN or the function byte. -/
def wordXNN (hi : BitVec 4) (x : RegIdx) (nn : Byte) : Word := hi ++ RegIdx.bits x ++ nn

/-- Format `XYN` (30_encoding.md R101): the low nibble is N or the function code. -/
def wordXYN (hi : BitVec 4) (x y : RegIdx) (n : BitVec 4) : Word := hi ++ RegIdx.bits x ++ RegIdx.bits y ++ n

/-- The word of an instruction, from the patterns of 30_encoding.md R105. -/
def encode : Instr → Word
  | .cls => 0x00E0
  | .ret => 0x00EE
  | .jp nnn => wordNNN 0x1 nnn
  | .call nnn => wordNNN 0x2 nnn
  | .seImm x nn => wordXNN 0x3 x nn
  | .sneImm x nn => wordXNN 0x4 x nn
  | .seReg x y => wordXYN 0x5 x y 0x0
  | .ldImm x nn => wordXNN 0x6 x nn
  | .addImm x nn => wordXNN 0x7 x nn
  | .ldReg x y => wordXYN 0x8 x y 0x0
  | .orReg x y => wordXYN 0x8 x y 0x1
  | .andReg x y => wordXYN 0x8 x y 0x2
  | .xorReg x y => wordXYN 0x8 x y 0x3
  | .addReg x y => wordXYN 0x8 x y 0x4
  | .subReg x y => wordXYN 0x8 x y 0x5
  | .shr x y => wordXYN 0x8 x y 0x6
  | .subn x y => wordXYN 0x8 x y 0x7
  | .shl x y => wordXYN 0x8 x y 0xE
  | .sneReg x y => wordXYN 0x9 x y 0x0
  | .ldI nnn => wordNNN 0xA nnn
  | .jpV0 nnn => wordNNN 0xB nnn
  | .rnd x nn => wordXNN 0xC x nn
  | .drw x y n => wordXYN 0xD x y n
  | .skp x => wordXNN 0xE x 0x9E
  | .sknp x => wordXNN 0xE x 0xA1
  | .ldVxDt x => wordXNN 0xF x 0x07
  | .ldVxK x => wordXNN 0xF x 0x0A
  | .ldDtVx x => wordXNN 0xF x 0x15
  | .ldStVx x => wordXNN 0xF x 0x18
  | .addI x => wordXNN 0xF x 0x1E
  | .ldF x => wordXNN 0xF x 0x29
  | .ldB x => wordXNN 0xF x 0x33
  | .stRegs x => wordXNN 0xF x 0x55
  | .ldRegs x => wordXNN 0xF x 0x65

/-- The two bytes of an instruction as they lie in memory, the high byte first (20_memory.md R75). -/
def encodeBytes (i : Instr) : List Byte := [Word.hiByte (encode i), Word.loByte (encode i)]

/-- What the decoder reads from an instruction whose bits are `w`, numbered as spec/opcode_table.json numbers them: the
word laid out in memory order and given to `decode`. Bits from `nbits` up are 0. -/
def decodeTableWord (nbits w : Nat) : Option Instr :=
  let op : Word := BitVec.ofNat 16 (w % 2 ^ nbits)
  match decode [Word.hiByte op, Word.loByte op] with
  | .ok (i, _) => some i
  | .error _ => none

end Sys2Proof
end

