-- ==== Sys2Proof/Machine/State.lean ====
section
/-! DEFINITION. The state of the core (10_state.md), the reasons a step can stop, and the state after reset
(70_reset_and_hazards.md R330, R334). -/

namespace Sys2Proof.Machine

/-- The mode of the core (10_state.md R42). -/
inductive Mode where
  /-- The core executes one instruction per step. -/
  | running
  /-- The core is suspended in FX0A with destination register X. -/
  | awaitingKey (x : RegIdx)
  /-- A fatal error occurred and emulation has terminated. -/
  | halted
  deriving DecidableEq, Repr

/-- The fatal errors (60_exceptions.md R300). -/
inductive ErrorKind where
  /-- A word that decodes as `illegal` (R301). -/
  | unknownOpcode
  /-- 2NNN with SP = 16 (R302). -/
  | stackOverflow
  /-- 00EE with SP = 0 (R303). -/
  | stackUnderflow
  /-- A fetch or a data access above 0xFFF (R304). -/
  | memoryOutOfBounds
  /-- A load of more than 3584 bytes (R307). -/
  | romTooLarge
  deriving DecidableEq, Repr

/-- The local error, which changes no state (60_exceptions.md R308). -/
inductive LocalError where
  /-- `set_key` with a key outside 0..15 (42_keys_timers.md R232). -/
  | keyIndexOutOfRange
  deriving DecidableEq, Repr

/-- The last place of an error record: an address, the ROM length "in place of addr", or neither (60_exceptions.md R300). -/
inductive ErrorInfo where
  /-- Nothing: UnknownOpcode, StackOverflow, StackUnderflow. -/
  | nothing
  /-- addr, the out-of-range address, for MemoryOutOfBounds alone (10_state.md R45). -/
  | addr (a : Nat)
  /-- The ROM length, for RomTooLarge alone; it is no addr (60_exceptions.md R300, R307). -/
  | romLength (n : Nat)
  deriving DecidableEq, Repr

/-- The error record err (10_state.md R45). DEDUCED (log entry 15), safe: R45 gives addr to MemoryOutOfBounds alone, and
60_exceptions.md R300 and R307 put the ROM length in its place for RomTooLarge, so the last place tells the two apart. -/
structure ErrorRecord where
  /-- The kind of error. -/
  kind : ErrorKind
  /-- pc at the start of the faulting step; none for RomTooLarge, which no step raises. -/
  faultPc : Option Word
  /-- The word fetched; none when the fetch itself faulted and for RomTooLarge. -/
  opcode : Option Word
  /-- addr, or the ROM length in its place. -/
  info : ErrorInfo
  deriving DecidableEq, Repr

/-- The display: one word of 64 pixels a row, the pixel of column c in bit c (10_state.md R41; log entry 8). -/
abbrev Display := Vector (BitVec 64) 32

/-- The state of the core, with the launch parameters and the model's own count of draws. -/
structure State where
  /-- V0..VF (R30, R31). -/
  v : Vector Byte 16
  /-- The index register I (R33). -/
  iReg : Word
  /-- The program counter (R34). -/
  pc : Word
  /-- The stack pointer SP, the number of occupied entries (R37). -/
  sp : Byte
  /-- The call stack (R38). -/
  stack : Vector Word 16
  /-- The delay timer DT (R39). -/
  dt : Byte
  /-- The sound timer ST (R40). -/
  st : Byte
  /-- Memory, in canonical form over the load-time bytes (20_memory.md R70). -/
  mem : Memory
  /-- The display buffer (R41). -/
  disp : Display
  /-- The input latch: bit k is key k (R44). -/
  keys : BitVec 16
  /-- The mode (R42). -/
  mode : Mode
  /-- key_event (R43). -/
  keyEvent : Option KeyIdx
  /-- The error record (R45). -/
  err : Option ErrorRecord
  /-- The launch parameters (00_scope.md R13, R15–R19), which no operation changes. DESIGN CHOICE (log entry 1), safe. -/
  params : Params
  /-- The model's own: how many draws have been taken (log entry 4). -/
  draws : Nat
  deriving DecidableEq, Repr

/-- Why the machine stops without a next state. A fatal error of the spec is no such stop: it is a next state in mode
Halted (60_exceptions.md R305). -/
inductive Fault where
  /-- Raised by 2NNN with SP > 16 and by 00EE with SP > 16: there is no such stack entry. 10_state.md R37 rules these
  states out and no run reaches one (log entry 6). Safe. -/
  | noSuchStackEntry
  deriving DecidableEq, Repr

/-- Why the machine gives no meaning. -/
inductive Refusal where
  /-- Raised by no instruction: every arm of `exec` has its meaning. It is kept for the form of `exec`. Safe. -/
  | notModelled (mnemonic : String)
  /-- Raised by the load port when the launch configuration is ill formed: "refused, not loaded"
  (70_reset_and_hazards.md R331). No instruction raises it. Safe. -/
  | badConfiguration
  deriving DecidableEq, Repr

/-- The state a successful load of an empty ROM leaves, with parameters p, at the first load
(70_reset_and_hazards.md R330, R334). Memory lists nothing: each byte reads as MEM_INIT or FONT gives it. -/
def State.launch (p : Params) : State where
  v := Vector.replicate 16 0x00
  iReg := 0x0000
  pc := 0x0200
  sp := 0
  stack := Vector.replicate 16 0x0000
  dt := 0x00
  st := 0x00
  mem := []
  disp := Vector.replicate 32 0
  keys := 0
  mode := .running
  keyEvent := none
  err := none
  params := p
  draws := 0

/-- The machine right after reset, with the spec's default parameters (log entry 2) and an empty ROM (log entry 5). -/
def State.reset : State := State.launch Params.standard

end Sys2Proof.Machine
end

