-- ==== Sys2Proof/Machine/Ops.lean ====
section
/-! DEFINITION. The named operations over memory and registers, and taking a fatal error, the core's only trap
(60_exceptions.md R305). There is no return from one: only `load` leaves Halted (R306, R311). -/

namespace Sys2Proof.Machine

/-! ### Memory as a list of cells -/

/-- The byte at an address: the listed one, else what an unlisted address reads as. -/
def memoryRead (unlisted : Nat → Byte) : Memory → Nat → Byte
  | [], a => unlisted a
  | (b, v) :: m, a => if a = b then v else memoryRead unlisted m a

/-- Store a byte, keeping the canonical form: writing what an unlisted address reads as removes the cell. -/
def memoryWrite (unlisted : Nat → Byte) : Memory → Nat → Byte → Memory
  | [], a, v => if v = unlisted a then [] else [(a, v)]
  | (b, w) :: m, a, v =>
    if a < b then (if v = unlisted a then (b, w) :: m else (a, v) :: (b, w) :: m)
    else if a = b then (if v = unlisted a then m else (a, v) :: m)
    else (b, w) :: memoryWrite unlisted m a v

/-- What an unlisted address reads as: the byte that load leaves outside the ROM. MEM_INIT is written first and FONT
over it (70_reset_and_hazards.md R330, R331; 20_memory.md R77, R78). -/
def initByte (p : Params) (a : Nat) : Byte :=
  if p.fontBase ≤ a ∧ a < p.fontBase + p.font.length then p.font.getD (a - p.fontBase) 0x00
  else memoryRead (fun _ => 0x00) p.memInit a

/-- The byte at an address of the state, whatever the address. -/
def State.byteAt (s : State) (a : Nat) : Byte := memoryRead (initByte s.params) s.mem a

/-- Store a byte, whatever the address. -/
def State.setByte (s : State) (a : Nat) (b : Byte) : State :=
  { s with mem := memoryWrite (initByte s.params) s.mem a b }

/-- `MemRead(addr, 1)`: an address above 0xFFF is an error that names it (20_memory.md R72). -/
def memRead (s : State) (addr : Nat) : Except Nat Byte :=
  if addr > 0xFFF then .error addr else .ok (s.byteAt addr)

/-- `MemWrite(addr, 1, v)`, with the same check (20_memory.md R73). -/
def memWrite (s : State) (addr : Nat) (b : Byte) : Except Nat State :=
  if addr > 0xFFF then .error addr else .ok (s.setByte addr b)

/-- Read n bytes at consecutive rising addresses (20_memory.md R74). The error is the lowest address out of range. -/
def readBytes (s : State) : Nat → Nat → Except Nat (List Byte)
  | _, 0 => .ok []
  | base, n + 1 =>
    match memRead s base with
    | .error a => .error a
    | .ok b =>
      match readBytes s (base + 1) n with
      | .error a => .error a
      | .ok bs => .ok (b :: bs)

/-- Write bytes at consecutive rising addresses (20_memory.md R74). An error carries no state, so that nothing is written
(60_exceptions.md R305). -/
def writeBytes : State → Nat → List Byte → Except Nat State
  | s, _, [] => .ok s
  | s, base, b :: bs =>
    match memWrite s base b with
    | .error a => .error a
    | .ok t => writeBytes t (base + 1) bs

/-! ### Registers -/

/-- Read Vi (00_scope.md R23). -/
def State.getV (s : State) (x : RegIdx) : Byte := s.v[x]

/-- Write Vi (00_scope.md R23). No register is hardwired (10_state.md R30). -/
def State.setV (s : State) (x : RegIdx) (b : Byte) : State := { s with v := s.v.set x b }

/-- Write consecutive registers from number k on. -/
def loadRegsFrom (v : Vector Byte 16) : Nat → List Byte → Vector Byte 16
  | _, [] => v
  | k, b :: bs => loadRegsFrom (v.setIfInBounds k b) (k + 1) bs

/-- Write V0, V1, … in turn (44_memory_ops.md R271). -/
def State.loadRegs (s : State) (bs : List Byte) : State := { s with v := loadRegsFrom s.v 0 bs }

/-- Write I (10_state.md R33). -/
def State.setI (s : State) (w : Word) : State := { s with iReg := w }

/-- Write pc (00_scope.md R23). -/
def State.setPc (s : State) (w : Word) : State := { s with pc := w }

/-- Write DT (10_state.md R39). -/
def State.setDt (s : State) (b : Byte) : State := { s with dt := b }

/-- Write ST (10_state.md R40). -/
def State.setSt (s : State) (b : Byte) : State := { s with st := b }

/-- Write the whole display buffer (10_state.md R41). -/
def State.setDisp (s : State) (d : Display) : State := { s with disp := d }

/-- The fetch increment, pc <- (pc + 2) mod 2^16 (10_state.md R34, R36). -/
def State.advance (s : State) : State := s.setPc (s.pc + 2)

/-- Move past this instruction, and over the next word too if c holds (43_flow.md R251). -/
def State.skipIf (s : State) (c : Bool) : State := if c then s.advance.advance else s.advance

/-- `stack[SP] <- w; SP <- SP + 1` (43_flow.md R244); none when there is no entry SP. -/
def State.push (s : State) (w : Word) : Option State :=
  if h : s.sp.toNat < 16 then some { s with stack := s.stack.set s.sp.toNat w, sp := s.sp + 1 } else none

/-- `SP <- SP − 1; pc <- stack[SP]` (43_flow.md R245); none when there is no entry SP − 1. The entry keeps its value. -/
def State.popPc (s : State) : Option State :=
  if h : (s.sp - 1).toNat < 16 then some { s with sp := s.sp - 1, pc := s.stack[(s.sp - 1).toNat] } else none

/-- One draw has been taken. -/
def State.nextDraw (s : State) : State := { s with draws := s.draws + 1 }

/-! ### The pixel grid -/

/-- `disp[r][c]` (00_scope.md R23). -/
def Display.pixel (d : Display) (r : RowIdx) (c : ColIdx) : Bool := d[r].getLsbD c.val

/-- `disp[r][c] <- disp[r][c] XOR 1` (41_display.md R183). -/
def Display.flip (d : Display) (r : RowIdx) (c : ColIdx) : Display := d.set r (d[r] ^^^ (1#64 <<< c.val))

/-- Every pixel off (41_display.md R182). -/
def Display.clear : Display := Vector.replicate 32 0

/-! ### The input latch -/

/-- Every key, from 0 up. -/
def allKeys : List KeyIdx := [0, 1, 2, 3, 4, 5, 6, 7, 8, 9, 10, 11, 12, 13, 14, 15]

/-- `is_pressed(k)` (42_keys_timers.md R233). -/
def State.isPressed (s : State) (k : KeyIdx) : Bool := s.keys.getLsbD k.val

/-- The pressed keys, the lowest first. -/
def State.pressedKeys (s : State) : List KeyIdx := allKeys.filter s.isPressed

/-- `any_pressed()`: the key that `pick(keys)` chooses and the state after a draw if it took one; none when no key is
pressed (42_keys_timers.md R203, R233). -/
def State.anyPressed (s : State) : Option (KeyIdx × State) :=
  match s.pressedKeys with
  | [] => none
  | k :: ks =>
    match s.params.keyPick with
    | .lowest => some (k, s)
    | .any => some ((k :: ks).getD (Config.freePick s.draws % (ks.length + 1)) k, s.nextDraw)

/-- Suspend in FX0A: pc stays at the FX0A word (42_keys_timers.md R200). -/
def State.suspend (s : State) (x : RegIdx) : State := { s with mode := .awaitingKey x, keyEvent := none }

/-- Resume from FX0A with key k: one pc advance and nothing else executed (42_keys_timers.md R202). -/
def State.resume (s : State) (x : RegIdx) (k : KeyIdx) : State :=
  { s.advance.setV x (BitVec.ofNat 8 k.val) with mode := .running, keyEvent := none }

/-! ### Taking a fatal error -/

/-- addr of an error record: the out-of-range address, none where the record holds no address (10_state.md R45). -/
def ErrorRecord.addr (e : ErrorRecord) : Option Nat :=
  match e.info with
  | .nothing => none
  | .addr a => some a
  | .romLength _ => none

/-- Halt with an error record (60_exceptions.md R305 (2) and (3)). -/
def State.halt (s : State) (e : ErrorRecord) : State := { s with err := some e, mode := .halted }

/-- `raise E(info)` inside a step that began in s: every effect of the step is discarded, so that the state is s with
err = (E, fetch_pc, opcode, addr) and mode Halted (60_exceptions.md R305). -/
def raise (kind : ErrorKind) (opcode : Option Word) (info : ErrorInfo) (s : State) :
    Host.Outcome State Fault Refusal :=
  .next (s.halt ⟨kind, some s.pc, opcode, info⟩)

/-- `raise MemoryOutOfBounds(addr)` by instruction i (60_exceptions.md R304). -/
def raiseOutOfBounds (i : Instr) (addr : Nat) (s : State) : Host.Outcome State Fault Refusal :=
  raise .memoryOutOfBounds (some (encode i)) (.addr addr) s

/-- `fetch(pc)`: the big-endian word at pc and pc + 1, or the lowest address out of range (43_flow.md R241). -/
def fetch (s : State) : Except Nat Word :=
  match memRead s s.pc.toNat, memRead s (s.pc.toNat + 1) with
  | .error a, _ => .error a
  | .ok _, .error a => .error a
  | .ok hi, .ok lo => .ok (wordOfBytes hi lo)

/-- Put a word where the next step fetches: at pc, or at 0x200 when nothing can be fetched at pc; a core that is not
running is set running, with no error and no key event (log entry 5). -/
def placeWord (op : Word) (s : State) : State :=
  let r := { s with mode := .running, keyEvent := none, err := none, pc := if s.pc.toNat + 1 > 0xFFF then 0x0200 else s.pc }
  (r.setByte r.pc.toNat (Word.hiByte op)).setByte (r.pc.toNat + 1) (Word.loByte op)

end Sys2Proof.Machine
end

