-- ==== Sys2Proof/Machine/Flags.lean ====
section
/-! DEFINITION. Every flag computation (40_alu.md R130, R131; 10_state.md R31), and writing a result with its flag. -/

namespace Sys2Proof.Machine

/-- A flag as VF holds it: 0x01 or 0x00. -/
def flagByte (c : Bool) : Byte := if c then 0x01 else 0x00

/-- Carry: `(a + b > 255) ? 1 : 0` on unbounded integers (40_alu.md R130, R138). -/
def carry (a b : Byte) : Byte := flagByte (decide (a.toNat + b.toNat > 255))

/-- Not-borrow of a − b: `(a >= b) ? 1 : 0`, unsigned (40_alu.md R130, R139). -/
def notBorrow (a b : Byte) : Byte := flagByte (decide (a.toNat ≥ b.toNat))

/-- The bit a right shift moves out: `zext_8(src[0])` (40_alu.md R140). -/
def shiftedOutRight (src : Byte) : Byte := flagByte (src.getLsbD 0)

/-- The bit a left shift moves out: `zext_8(src[7])` (40_alu.md R142). -/
def shiftedOutLeft (src : Byte) : Byte := flagByte (src.getLsbD 7)

/-- The result to Vx, then the flag to VF, so that with X = F the flag stays (40_alu.md R131). -/
def State.setResultFlag (s : State) (x : RegIdx) (result flag : Byte) : State := (s.setV x result).setV regVF flag

/-- The result of a logic instruction to Vx, then VF <- 0 if LOGIC_VF_RESET (40_alu.md R135). -/
def State.setLogicResult (s : State) (x : RegIdx) (result : Byte) : State :=
  if s.params.logicVfReset then s.setResultFlag x result 0x00 else s.setV x result

end Sys2Proof.Machine
end

