-- ==== Sys2Proof/Machine/Operands.lean ====
section
/-! DEFINITION. Every operand form: immediates (30_encoding.md R103), the shift source, the key number, the coordinates and
pixels of a sprite, the decimal digits and the addresses formed from I. -/

namespace Sys2Proof.Machine

/-- `zext_16(NNN)` (30_encoding.md R103). -/
def zext16 (nnn : Addr12) : Word := nnn.setWidth 16

/-- `zext_16(x[i])` (43_flow.md R246, 44_memory_ops.md R274). -/
def zextByte (b : Byte) : Word := b.setWidth 16

/-- `(SHIFT_SRC == VY) ? x[Y] : x[X]` (40_alu.md R140). -/
def State.shiftSource (s : State) (x y : RegIdx) : Byte :=
  match s.params.shiftSrc with
  | .vy => s.getV y
  | .vx => s.getV x

/-- `v[3:0]` as a number (42_keys_timers.md R204, 44_memory_ops.md R275). -/
def lowNibble (b : Byte) : KeyIdx := (b.extractLsb' 0 4).toFin

/-- `FONT_BASE + 5·v[3:0]` (44_memory_ops.md R275). -/
def State.fontAddr (s : State) (b : Byte) : Word := BitVec.ofNat 16 (s.params.fontBase + 5 * (lowNibble b).val)

/-- I after a block of X + 1 bytes: I + X + 1 mod 2^16 with INDEX_INCREMENT, else I (44_memory_ops.md R270). -/
def State.indexAfter (s : State) (x : RegIdx) : Word :=
  if s.params.indexIncrement then s.iReg + BitVec.ofNat 16 (x.val + 1) else s.iReg

/-- V0..VX, in order (44_memory_ops.md R270). -/
def State.regsUpTo (s : State) (x : RegIdx) : List Byte := s.v.toList.take (x.val + 1)

/-- The three decimal digits of a byte, the hundreds first (44_memory_ops.md R272). -/
def bcdDigits (b : Byte) : List Byte :=
  [BitVec.ofNat 8 (b.toNat / 100), BitVec.ofNat 8 (b.toNat / 10 % 10), BitVec.ofNat 8 (b.toNat % 10)]

/-- Display row `(y0 + r) mod 32` (41_display.md R180). -/
def wrapRow (y0 : Byte) (r : Nat) : RowIdx := ⟨(y0.toNat % 32 + r) % 32, Nat.mod_lt _ (by decide)⟩

/-- Display column `(x0 + c) mod 64` (41_display.md R180). -/
def wrapCol (x0 : Byte) (c : Nat) : ColIdx := ⟨(x0.toNat % 64 + c) % 64, Nat.mod_lt _ (by decide)⟩

/-- The columns c = 0..7 of a sprite row whose bit `row[7 − c]` is 1: the most significant bit is the leftmost pixel
(41_display.md R180). -/
def setColumns (b : Byte) : List Nat := [0, 1, 2, 3, 4, 5, 6, 7].filter fun c => b.getLsbD (7 - c)

/-- The pixels a sprite XORs, its rows from number r on, at Vx = vx and Vy = vy (41_display.md R180, R183). -/
def spritePixels (vx vy : Byte) : Nat → List Byte → List (RowIdx × ColIdx)
  | _, [] => []
  | r, b :: bs => (setColumns b).map (fun c => (wrapRow vy r, wrapCol vx c)) ++ spritePixels vx vy (r + 1) bs

/-- XOR one pixel of a draw, and note whether it went from on to off (41_display.md R181, R183). -/
def drawPixel (acc : Display × Bool) (p : RowIdx × ColIdx) : Display × Bool :=
  (Display.flip acc.1 p.1 p.2, acc.2 || Display.pixel acc.1 p.1 p.2)

/-- Draw a sprite: the display after it, and whether it collided (41_display.md R181, R183). -/
def drawSprite (d : Display) (vx vy : Byte) (rows : List Byte) : Display × Bool :=
  (spritePixels vx vy 0 rows).foldl drawPixel (d, false)

end Sys2Proof.Machine
end

