-- ==== Sys2Proof/Machine/Alu.lean ====
section
/-! DEFINITION. The ALU instructions (40_alu.md). Each meaning takes the state at the start of the step, whose pc is
fetch_pc, and answers the state after it, whose pc is the next word's. -/

namespace Sys2Proof.Machine

/-- 6XNN (40_alu.md R132): `x[X] <- NN`. -/
def execLdImm (x : RegIdx) (nn : Byte) (s : State) : Host.Outcome State Fault Refusal :=
  .next (s.advance.setV x nn)

/-- 7XNN (40_alu.md R133): `x[X] <- (x[X] + NN)[7:0]`, no flag. -/
def execAddImm (x : RegIdx) (nn : Byte) (s : State) : Host.Outcome State Fault Refusal :=
  .next (s.advance.setV x (s.getV x + nn))

/-- 8XY0 (40_alu.md R134): `x[X] <- x[Y]`. -/
def execLdReg (x y : RegIdx) (s : State) : Host.Outcome State Fault Refusal :=
  .next (s.advance.setV x (s.getV y))

/-- 8XY1 (40_alu.md R135): `x[X] <- a | b`. -/
def execOrReg (x y : RegIdx) (s : State) : Host.Outcome State Fault Refusal :=
  .next (s.advance.setLogicResult x (s.getV x ||| s.getV y))

/-- 8XY2 (40_alu.md R136): `x[X] <- a & b`. -/
def execAndReg (x y : RegIdx) (s : State) : Host.Outcome State Fault Refusal :=
  .next (s.advance.setLogicResult x (s.getV x &&& s.getV y))

/-- 8XY3 (40_alu.md R137): `x[X] <- a ^ b`. -/
def execXorReg (x y : RegIdx) (s : State) : Host.Outcome State Fault Refusal :=
  .next (s.advance.setLogicResult x (s.getV x ^^^ s.getV y))

/-- 8XY4 (40_alu.md R138): `x[X] <- (a + b)[7:0]`, VF <- carry. -/
def execAddReg (x y : RegIdx) (s : State) : Host.Outcome State Fault Refusal :=
  .next (s.advance.setResultFlag x (s.getV x + s.getV y) (carry (s.getV x) (s.getV y)))

/-- 8XY5 (40_alu.md R139): `x[X] <- (a − b) mod 256`, VF <- not-borrow. -/
def execSubReg (x y : RegIdx) (s : State) : Host.Outcome State Fault Refusal :=
  .next (s.advance.setResultFlag x (s.getV x - s.getV y) (notBorrow (s.getV x) (s.getV y)))

/-- 8XY6 (40_alu.md R140): `x[X] <- src >> 1`, VF <- src[0]. -/
def execShr (x y : RegIdx) (s : State) : Host.Outcome State Fault Refusal :=
  .next (s.advance.setResultFlag x (s.shiftSource x y >>> 1) (shiftedOutRight (s.shiftSource x y)))

/-- 8XY7 (40_alu.md R141): `x[X] <- (b − a) mod 256`, VF <- not-borrow of Vy − Vx. -/
def execSubn (x y : RegIdx) (s : State) : Host.Outcome State Fault Refusal :=
  .next (s.advance.setResultFlag x (s.getV y - s.getV x) (notBorrow (s.getV y) (s.getV x)))

/-- 8XYE (40_alu.md R142): `x[X] <- (src << 1)[7:0]`, VF <- src[7]. -/
def execShl (x y : RegIdx) (s : State) : Host.Outcome State Fault Refusal :=
  .next (s.advance.setResultFlag x (s.shiftSource x y <<< 1) (shiftedOutLeft (s.shiftSource x y)))

/-- CXNN (40_alu.md R143): `r <- draw RAND; x[X] <- r & NN`. The byte is a free value (log entry 4). -/
def execRnd (x : RegIdx) (nn : Byte) (s : State) : Host.Outcome State Fault Refusal :=
  .next (s.advance.nextDraw.setV x (Config.freeByte s.draws &&& nn))

end Sys2Proof.Machine
end

