-- ==== Sys2Proof/Machine/Draw.lean ====
section
/-! DEFINITION. The display instructions (41_display.md). -/

namespace Sys2Proof.Machine

/-- 00E0 (41_display.md R182): every pixel off. -/
def execCls (s : State) : Host.Outcome State Fault Refusal :=
  .next (s.advance.setDisp Display.clear)

/-- DXYN (41_display.md R183): N sprite bytes from I, XORed at (Vx mod 64, Vy mod 32), VF <- collision. With N = 0 no byte
is read and VF <- 0. -/
def execDrw (x y : RegIdx) (n : BitVec 4) (s : State) : Host.Outcome State Fault Refusal :=
  match readBytes s s.iReg.toNat n.toNat with
  | .error a => raiseOutOfBounds (.drw x y n) a s
  | .ok rows =>
    let drawn := drawSprite s.disp (s.getV x) (s.getV y) rows
    .next ((s.advance.setDisp drawn.1).setV regVF (flagByte drawn.2))

end Sys2Proof.Machine
end

