-- ==== Sys2Proof/Machine/Flow.lean ====
section
/-! DEFINITION. Jumps, calls, returns and compare-and-skip (43_flow.md). -/

namespace Sys2Proof.Machine

/-- 00EE (43_flow.md R245): StackUnderflow when SP = 0, else `SP <- SP − 1; pc <- stack[SP]`. -/
def execRet (s : State) : Host.Outcome State Fault Refusal :=
  if s.sp = 0 then raise .stackUnderflow (some (encode .ret)) .nothing s
  else
    match s.popPc with
    | some t => .next t
    | none => .fault .noSuchStackEntry

/-- 1NNN (43_flow.md R243): `pc <- zext_16(NNN)`. -/
def execJp (nnn : Addr12) (s : State) : Host.Outcome State Fault Refusal :=
  .next (s.setPc (zext16 nnn))

/-- 2NNN (43_flow.md R244): StackOverflow when SP = 16, else push the address of the next word and jump. -/
def execCall (nnn : Addr12) (s : State) : Host.Outcome State Fault Refusal :=
  if s.sp = 16 then raise .stackOverflow (some (encode (.call nnn))) .nothing s
  else
    match s.push s.advance.pc with
    | some t => .next (t.setPc (zext16 nnn))
    | none => .fault .noSuchStackEntry

/-- 3XNN (43_flow.md R247): skip if `x[X] == NN`. -/
def execSeImm (x : RegIdx) (nn : Byte) (s : State) : Host.Outcome State Fault Refusal :=
  .next (s.skipIf (s.getV x == nn))

/-- 4XNN (43_flow.md R248): skip if `x[X] != NN`. -/
def execSneImm (x : RegIdx) (nn : Byte) (s : State) : Host.Outcome State Fault Refusal :=
  .next (s.skipIf (s.getV x != nn))

/-- 5XY0 (43_flow.md R249): skip if `x[X] == x[Y]`. -/
def execSeReg (x y : RegIdx) (s : State) : Host.Outcome State Fault Refusal :=
  .next (s.skipIf (s.getV x == s.getV y))

/-- 9XY0 (43_flow.md R250): skip if `x[X] != x[Y]`. -/
def execSneReg (x y : RegIdx) (s : State) : Host.Outcome State Fault Refusal :=
  .next (s.skipIf (s.getV x != s.getV y))

/-- BNNN (43_flow.md R246): `pc <- zext_16(NNN) + zext_16(x[0])`. -/
def execJpV0 (nnn : Addr12) (s : State) : Host.Outcome State Fault Refusal :=
  .next (s.setPc (zext16 nnn + zextByte (s.getV regV0)))

end Sys2Proof.Machine
end

