-- ==== Sys2Proof/Machine/Keys.lean ====
section
/-! DEFINITION. The key wait, the key skips and the timer instructions (42_keys_timers.md). -/

namespace Sys2Proof.Machine

/-- EX9E (42_keys_timers.md R204): skip if `keys[x[X][3:0]] == 1`. -/
def execSkp (x : RegIdx) (s : State) : Host.Outcome State Fault Refusal :=
  .next (s.skipIf (s.isPressed (lowNibble (s.getV x))))

/-- EXA1 (42_keys_timers.md R205): skip if `keys[x[X][3:0]] == 0`. -/
def execSknp (x : RegIdx) (s : State) : Host.Outcome State Fault Refusal :=
  .next (s.skipIf (!s.isPressed (lowNibble (s.getV x))))

/-- FX07 (42_keys_timers.md R206): `x[X] <- DT`. -/
def execLdVxDt (x : RegIdx) (s : State) : Host.Outcome State Fault Refusal :=
  .next (s.advance.setV x s.dt)

/-- FX0A (42_keys_timers.md R200): with LEVEL and a key held, `x[X] <- pick(keys)` and the instruction is complete;
otherwise the core suspends at this word. -/
def execLdVxK (x : RegIdx) (s : State) : Host.Outcome State Fault Refusal :=
  match s.params.keywaitTrigger, s.anyPressed with
  | .level, some (k, t) => .next (t.advance.setV x (BitVec.ofNat 8 k.val))
  | .level, none => .next (s.suspend x)
  | .pressEdge, _ => .next (s.suspend x)

/-- FX15 (42_keys_timers.md R207): `DT <- x[X]`. -/
def execLdDtVx (x : RegIdx) (s : State) : Host.Outcome State Fault Refusal :=
  .next (s.advance.setDt (s.getV x))

/-- FX18 (42_keys_timers.md R208): `ST <- x[X]`. -/
def execLdStVx (x : RegIdx) (s : State) : Host.Outcome State Fault Refusal :=
  .next (s.advance.setSt (s.getV x))

/-- A step in mode AwaitingKey(X): resume with a key, or change nothing (42_keys_timers.md R201, R202). -/
def awaitKey (x : RegIdx) (s : State) : Host.Outcome State Fault Refusal :=
  match s.params.keywaitTrigger with
  | .level =>
    match s.anyPressed with
    | some (k, t) => .next (t.resume x k)
    | none => .next s
  | .pressEdge =>
    match s.keyEvent with
    | some k => .next (s.resume x k)
    | none => .next s

end Sys2Proof.Machine
end

