-- ==== Sys2Proof/Machine/Transfer.lean ====
section
/-! DEFINITION. Memory transfers and the index register (44_memory_ops.md). -/

namespace Sys2Proof.Machine

/-- ANNN (44_memory_ops.md R273): `I <- zext_16(NNN)`. -/
def execLdI (nnn : Addr12) (s : State) : Host.Outcome State Fault Refusal :=
  .next (s.advance.setI (zext16 nnn))

/-- FX1E (44_memory_ops.md R274): `I <- (I + zext_16(x[X])) mod 2^16`, no flag. -/
def execAddI (x : RegIdx) (s : State) : Host.Outcome State Fault Refusal :=
  .next (s.advance.setI (s.iReg + zextByte (s.getV x)))

/-- FX29 (44_memory_ops.md R275): `I <- FONT_BASE + 5·x[X][3:0]`. -/
def execLdF (x : RegIdx) (s : State) : Host.Outcome State Fault Refusal :=
  .next (s.advance.setI (s.fontAddr (s.getV x)))

/-- FX33 (44_memory_ops.md R272): the three decimal digits of Vx at I, I + 1, I + 2. -/
def execLdB (x : RegIdx) (s : State) : Host.Outcome State Fault Refusal :=
  match writeBytes s s.iReg.toNat (bcdDigits (s.getV x)) with
  | .error a => raiseOutOfBounds (.ldB x) a s
  | .ok t => .next t.advance

/-- FX55 (44_memory_ops.md R270): V0..VX to memory from I on; I moves only with INDEX_INCREMENT. -/
def execStRegs (x : RegIdx) (s : State) : Host.Outcome State Fault Refusal :=
  match writeBytes s s.iReg.toNat (s.regsUpTo x) with
  | .error a => raiseOutOfBounds (.stRegs x) a s
  | .ok t => .next (t.advance.setI (s.indexAfter x))

/-- FX65 (44_memory_ops.md R271): V0..VX from memory from I on; I moves only with INDEX_INCREMENT. -/
def execLdRegs (x : RegIdx) (s : State) : Host.Outcome State Fault Refusal :=
  match readBytes s s.iReg.toNat (x.val + 1) with
  | .error a => raiseOutOfBounds (.ldRegs x) a s
  | .ok bs => .next ((s.advance.loadRegs bs).setI (s.indexAfter x))

end Sys2Proof.Machine
end

