-- ==== Sys2Proof/Machine/Cycle.lean ====
section
/-! DEFINITION. The step cycle (43_flow.md R240): what one step does in each mode. -/

namespace Sys2Proof.Machine

/-- Decode the fetched word and execute it; an illegal word raises UnknownOpcode (43_flow.md R240, 60_exceptions.md R301). -/
def runWord (op : Word) (s : State) : Host.Outcome State Fault Refusal :=
  match decodeWord op with
  | .ok i => exec i s
  | .error _ => raise .unknownOpcode (some op) .nothing s

/-- A step in mode Running: fetch, decode, execute (43_flow.md R240, R241). -/
def runInstruction (s : State) : Host.Outcome State Fault Refusal :=
  match fetch s with
  | .error a => raise .memoryOutOfBounds none (.addr a) s
  | .ok op => runWord op s

/-- `step()` (43_flow.md R240): a halted core changes nothing (60_exceptions.md R306), a waiting core looks for a key
(42_keys_timers.md R202), a running core executes one instruction. -/
def cycle (s : State) : Host.Outcome State Fault Refusal :=
  match s.mode with
  | .halted => .next s
  | .awaitingKey x => awaitKey x s
  | .running => runInstruction s

end Sys2Proof.Machine
end

