-- ==== Sys2Proof/Machine/Step.lean ====
section
/-! DEFINITION. The step port as the machine's one step, and placing an instruction where the next step fetches. -/

namespace Sys2Proof.Machine

/-- One step port operation (43_flow.md R240). -/
def step (s : State) : Host.Outcome State Fault Refusal := Sys2Proof.Machine.cycle s

/-- s with the instruction whose bits are `w` (numbered as spec/opcode_table.json numbers them; bits from `nbits` up are 0)
where the next step fetches. -/
def State.withFetchWord (s : State) (nbits w : Nat) : State :=
  Sys2Proof.Machine.placeWord (BitVec.ofNat 16 (w % 2 ^ nbits)) s

end Sys2Proof.Machine
end

