-- ==== Sys2Proof/Laws/Encoding.lean ====
section
/-! SUPPORT. The bits and fields of the encoder's words, and what the masks of the opcode map keep of them. -/

namespace Sys2Proof

/-- The bits of a joined value, the low part first. -/
theorem append_bit {m n : Nat} (a : BitVec m) (b : BitVec n) (i : Nat) :
    (a ++ b).getLsbD i = if i < n then b.getLsbD i else a.getLsbD (i - n) := by
  rw [BitVec.getLsbD_append]

/-- The bits of a word in format `NNN`. -/
theorem wordNNN_bit (hi : BitVec 4) (nnn : Addr12) (i : Nat) :
    (wordNNN hi nnn).getLsbD i = if i < 12 then nnn.getLsbD i else hi.getLsbD (i - 12) :=
  append_bit hi nnn i

/-- The bits of a word in formats `XNN` and `XFF`. -/
theorem wordXNN_bit (hi : BitVec 4) (x : RegIdx) (nn : Byte) (i : Nat) :
    (wordXNN hi x nn).getLsbD i =
      if i < 8 then nn.getLsbD i else if i - 8 < 4 then (RegIdx.bits x).getLsbD (i - 8) else hi.getLsbD (i - 8 - 4) :=
  (append_bit (hi ++ RegIdx.bits x) nn i).trans (by rw [append_bit])

/-- The bits of a word in format `XYN`. -/
theorem wordXYN_bit (hi : BitVec 4) (x y : RegIdx) (n : BitVec 4) (i : Nat) :
    (wordXYN hi x y n).getLsbD i =
      if i < 4 then n.getLsbD i else if i - 4 < 4 then (RegIdx.bits y).getLsbD (i - 4)
      else if i - 4 - 4 < 4 then (RegIdx.bits x).getLsbD (i - 4 - 4) else hi.getLsbD (i - 4 - 4 - 4) :=
  (append_bit (hi ++ RegIdx.bits x ++ RegIdx.bits y) n i).trans (by rw [append_bit, append_bit])

/-- A field is known by its bits. -/
theorem field_eq {k : Nat} {op : Word} {start : Nat} {f : BitVec k} (h : ∀ i < k, op.getLsbD (start + i) = f.getLsbD i) :
    op.extractLsb' start k = f := by
  apply BitVec.eq_of_getLsbD_eq
  intro i hi
  rw [BitVec.getLsbD_extractLsb', h i hi]
  simp [hi]

/-! The fields of a word in format `NNN`. -/

@[simp] theorem wordNNN_high (hi : BitVec 4) (nnn : Addr12) : (wordNNN hi nnn).extractLsb' 12 4 = hi :=
  field_eq fun i _ => by simp [wordNNN_bit]

@[simp] theorem wordNNN_fieldNNN (hi : BitVec 4) (nnn : Addr12) : Word.fieldNNN (wordNNN hi nnn) = nnn :=
  field_eq fun i h => by simp [wordNNN_bit, h]

/-! The fields of a word in formats `XNN` and `XFF`. -/

@[simp] theorem wordXNN_high (hi : BitVec 4) (x : RegIdx) (nn : Byte) : (wordXNN hi x nn).extractLsb' 12 4 = hi :=
  field_eq fun i _ => by
    simp [wordXNN_bit, show ¬ 12 + i < 8 by omega, show ¬ 12 + i - 8 < 4 by omega, show 12 + i - 8 - 4 = i by omega]

@[simp] theorem wordXNN_fieldX (hi : BitVec 4) (x : RegIdx) (nn : Byte) : Word.fieldX (wordXNN hi x nn) = x := by
  have h : (wordXNN hi x nn).extractLsb' 8 4 = RegIdx.bits x := field_eq fun i h => by simp [wordXNN_bit, h]
  rw [Word.fieldX, h]
  rfl

@[simp] theorem wordXNN_fieldNN (hi : BitVec 4) (x : RegIdx) (nn : Byte) : Word.fieldNN (wordXNN hi x nn) = nn :=
  field_eq fun i h => by simp [wordXNN_bit, h]

/-! The fields of a word in format `XYN`. -/

@[simp] theorem wordXYN_high (hi : BitVec 4) (x y : RegIdx) (n : BitVec 4) : (wordXYN hi x y n).extractLsb' 12 4 = hi :=
  field_eq fun i _ => by
    simp [wordXYN_bit, show ¬ 12 + i < 4 by omega, show ¬ 12 + i - 4 < 4 by omega, show ¬ 12 + i - 4 - 4 < 4 by omega,
      show 12 + i - 4 - 4 - 4 = i by omega]

@[simp] theorem wordXYN_fieldX (hi : BitVec 4) (x y : RegIdx) (n : BitVec 4) : Word.fieldX (wordXYN hi x y n) = x := by
  have h : (wordXYN hi x y n).extractLsb' 8 4 = RegIdx.bits x := field_eq fun i h => by
    simp [wordXYN_bit, h, show ¬ 8 + i < 4 by omega, show ¬ 8 + i - 4 < 4 by omega, show 8 + i - 4 - 4 = i by omega]
  rw [Word.fieldX, h]
  rfl

@[simp] theorem wordXYN_fieldY (hi : BitVec 4) (x y : RegIdx) (n : BitVec 4) : Word.fieldY (wordXYN hi x y n) = y := by
  have h : (wordXYN hi x y n).extractLsb' 4 4 = RegIdx.bits y := field_eq fun i h => by simp [wordXYN_bit, h]
  rw [Word.fieldY, h]
  rfl

@[simp] theorem wordXYN_fieldN (hi : BitVec 4) (x y : RegIdx) (n : BitVec 4) : Word.fieldN (wordXYN hi x y n) = n :=
  field_eq fun i h => by simp [wordXYN_bit, h]

/-! The words as numbers. -/

/-- A word in format `NNN` as a number. -/
theorem wordNNN_toNat (hi : BitVec 4) (nnn : Addr12) : (wordNNN hi nnn).toNat = 0x1000 * hi.toNat + nnn.toNat := by
  have h : (wordNNN hi nnn).toNat = hi.toNat <<< 12 ||| nnn.toNat := BitVec.toNat_append hi nnn
  rw [h, ← Nat.shiftLeft_add_eq_or_of_lt nnn.isLt, Nat.shiftLeft_eq]
  omega

/-- A word in formats `XNN` and `XFF` as a number. -/
theorem wordXNN_toNat (hi : BitVec 4) (x : RegIdx) (nn : Byte) :
    (wordXNN hi x nn).toNat = 0x1000 * hi.toNat + 0x100 * x.val + nn.toNat := by
  have h : (wordXNN hi x nn).toNat = (hi ++ RegIdx.bits x).toNat <<< 8 ||| nn.toNat := BitVec.toNat_append _ nn
  have hx : (RegIdx.bits x).toNat = x.val := rfl
  rw [h, ← Nat.shiftLeft_add_eq_or_of_lt nn.isLt, BitVec.toNat_append,
    ← Nat.shiftLeft_add_eq_or_of_lt (RegIdx.bits x).isLt, Nat.shiftLeft_eq, Nat.shiftLeft_eq, hx]
  omega

/-- A word in format `XYN` as a number. -/
theorem wordXYN_toNat (hi : BitVec 4) (x y : RegIdx) (n : BitVec 4) :
    (wordXYN hi x y n).toNat = 0x1000 * hi.toNat + 0x100 * x.val + 0x10 * y.val + n.toNat := by
  have h : (wordXYN hi x y n).toNat = (hi ++ RegIdx.bits x ++ RegIdx.bits y).toNat <<< 4 ||| n.toNat :=
    BitVec.toNat_append _ n
  have hx : (RegIdx.bits x).toNat = x.val := rfl
  have hy : (RegIdx.bits y).toNat = y.val := rfl
  rw [h, ← Nat.shiftLeft_add_eq_or_of_lt n.isLt, BitVec.toNat_append, BitVec.toNat_append,
    ← Nat.shiftLeft_add_eq_or_of_lt (RegIdx.bits y).isLt, ← Nat.shiftLeft_add_eq_or_of_lt (RegIdx.bits x).isLt,
    Nat.shiftLeft_eq, Nat.shiftLeft_eq, Nat.shiftLeft_eq, hx, hy]
  omega

/-! What the masks keep. -/

theorem wordNNN_mask (hi : BitVec 4) (nnn : Addr12) : wordNNN hi nnn &&& 0xF000#16 = wordNNN hi 0 := by
  apply BitVec.eq_of_getLsbD_eq
  intro i h
  rw [BitVec.getLsbD_and, wordNNN_bit, wordNNN_bit]
  interval_cases i <;> simp

theorem wordXNN_mask (hi : BitVec 4) (x : RegIdx) (nn : Byte) : wordXNN hi x nn &&& 0xF000#16 = wordXNN hi 0 0 := by
  apply BitVec.eq_of_getLsbD_eq
  intro i h
  rw [BitVec.getLsbD_and, wordXNN_bit, wordXNN_bit]
  interval_cases i <;> simp [RegIdx.bits]

theorem wordXFF_mask (hi : BitVec 4) (x : RegIdx) (nn : Byte) : wordXNN hi x nn &&& 0xF0FF#16 = wordXNN hi 0 nn := by
  apply BitVec.eq_of_getLsbD_eq
  intro i h
  rw [BitVec.getLsbD_and, wordXNN_bit, wordXNN_bit]
  interval_cases i <;> simp [RegIdx.bits]

theorem wordXYN_mask (hi : BitVec 4) (x y : RegIdx) (n : BitVec 4) :
    wordXYN hi x y n &&& 0xF00F#16 = wordXYN hi 0 0 n := by
  apply BitVec.eq_of_getLsbD_eq
  intro i h
  rw [BitVec.getLsbD_and, wordXYN_bit, wordXYN_bit]
  interval_cases i <;> simp [RegIdx.bits]

theorem wordXYN_maskHigh (hi : BitVec 4) (x y : RegIdx) (n : BitVec 4) :
    wordXYN hi x y n &&& 0xF000#16 = wordXYN hi 0 0 0 := by
  apply BitVec.eq_of_getLsbD_eq
  intro i h
  rw [BitVec.getLsbD_and, wordXYN_bit, wordXYN_bit]
  interval_cases i <;> simp [RegIdx.bits]

end Sys2Proof
end

