-- ==== Sys2Proof/Laws/PerInstr.lean ====
section
/-! SUPPORT. Per instruction: its encoding falls in its own row of the opcode map (30_encoding.md R105). -/

namespace Sys2Proof.Laws.EncodingRow

/-- The encoder's word of an instruction is selected by the match and mask of that instruction's own row. -/
def Statement (i : Instr) : Prop := (Instr.row i).selects (encode i) = true

/-- A row selects a word whose masked bits are its fixed bits. -/
theorem selects_of {r : OpRow} {op : Word} (h : op &&& r.mask = r.fixed) : r.selects op = true := by
  simp [OpRow.selects, h]

theorem cls : Statement .cls := selects_of (by decide)

theorem ret : Statement .ret := selects_of (by decide)

theorem jp (nnn : Addr12) : Statement (.jp nnn) := selects_of (wordNNN_mask _ _)

theorem call (nnn : Addr12) : Statement (.call nnn) := selects_of (wordNNN_mask _ _)

theorem seImm (x : RegIdx) (nn : Byte) : Statement (.seImm x nn) := selects_of (wordXNN_mask _ _ _)

theorem sneImm (x : RegIdx) (nn : Byte) : Statement (.sneImm x nn) := selects_of (wordXNN_mask _ _ _)

theorem seReg (x : RegIdx) (y : RegIdx) : Statement (.seReg x y) := selects_of (wordXYN_mask _ _ _ _)

theorem ldImm (x : RegIdx) (nn : Byte) : Statement (.ldImm x nn) := selects_of (wordXNN_mask _ _ _)

theorem addImm (x : RegIdx) (nn : Byte) : Statement (.addImm x nn) := selects_of (wordXNN_mask _ _ _)

theorem ldReg (x : RegIdx) (y : RegIdx) : Statement (.ldReg x y) := selects_of (wordXYN_mask _ _ _ _)

theorem orReg (x : RegIdx) (y : RegIdx) : Statement (.orReg x y) := selects_of (wordXYN_mask _ _ _ _)

theorem andReg (x : RegIdx) (y : RegIdx) : Statement (.andReg x y) := selects_of (wordXYN_mask _ _ _ _)

theorem xorReg (x : RegIdx) (y : RegIdx) : Statement (.xorReg x y) := selects_of (wordXYN_mask _ _ _ _)

theorem addReg (x : RegIdx) (y : RegIdx) : Statement (.addReg x y) := selects_of (wordXYN_mask _ _ _ _)

theorem subReg (x : RegIdx) (y : RegIdx) : Statement (.subReg x y) := selects_of (wordXYN_mask _ _ _ _)

theorem shr (x : RegIdx) (y : RegIdx) : Statement (.shr x y) := selects_of (wordXYN_mask _ _ _ _)

theorem subn (x : RegIdx) (y : RegIdx) : Statement (.subn x y) := selects_of (wordXYN_mask _ _ _ _)

theorem shl (x : RegIdx) (y : RegIdx) : Statement (.shl x y) := selects_of (wordXYN_mask _ _ _ _)

theorem sneReg (x : RegIdx) (y : RegIdx) : Statement (.sneReg x y) := selects_of (wordXYN_mask _ _ _ _)

theorem ldI (nnn : Addr12) : Statement (.ldI nnn) := selects_of (wordNNN_mask _ _)

theorem jpV0 (nnn : Addr12) : Statement (.jpV0 nnn) := selects_of (wordNNN_mask _ _)

theorem rnd (x : RegIdx) (nn : Byte) : Statement (.rnd x nn) := selects_of (wordXNN_mask _ _ _)

theorem drw (x : RegIdx) (y : RegIdx) (n : BitVec 4) : Statement (.drw x y n) := selects_of (wordXYN_maskHigh _ _ _ _)

theorem skp (x : RegIdx) : Statement (.skp x) := selects_of (wordXFF_mask _ _ _)

theorem sknp (x : RegIdx) : Statement (.sknp x) := selects_of (wordXFF_mask _ _ _)

theorem ldVxDt (x : RegIdx) : Statement (.ldVxDt x) := selects_of (wordXFF_mask _ _ _)

theorem ldVxK (x : RegIdx) : Statement (.ldVxK x) := selects_of (wordXFF_mask _ _ _)

theorem ldDtVx (x : RegIdx) : Statement (.ldDtVx x) := selects_of (wordXFF_mask _ _ _)

theorem ldStVx (x : RegIdx) : Statement (.ldStVx x) := selects_of (wordXFF_mask _ _ _)

theorem addI (x : RegIdx) : Statement (.addI x) := selects_of (wordXFF_mask _ _ _)

theorem ldF (x : RegIdx) : Statement (.ldF x) := selects_of (wordXFF_mask _ _ _)

theorem ldB (x : RegIdx) : Statement (.ldB x) := selects_of (wordXFF_mask _ _ _)

theorem stRegs (x : RegIdx) : Statement (.stRegs x) := selects_of (wordXFF_mask _ _ _)

theorem ldRegs (x : RegIdx) : Statement (.ldRegs x) := selects_of (wordXFF_mask _ _ _)

end Sys2Proof.Laws.EncodingRow
end

