-- ==== Sys2Proof/Machine/Ports.lean ====
section
/-! DEFINITION. The six ports of the core (10_state.md R60): load, step, tick, set_key, display and status, and any
sequence of them (70_reset_and_hazards.md R350). -/

namespace Sys2Proof.Machine

/-- What a port answers to its caller (00_scope.md R24; 10_state.md R60). -/
inductive Answer where
  /-- Completed. -/
  | ok
  /-- A fatal error; the core is Halted. -/
  | fatal (kind : ErrorKind)
  /-- A rejected request; nothing changed. -/
  | localError (e : LocalError)
  /-- The display port's copy of disp. -/
  | grid (d : Display)
  /-- The status port's mode, err and tone. -/
  | report (mode : Mode) (err : Option ErrorRecord) (tone : Bool)
  deriving DecidableEq, Repr

/-- A port operation with its arguments (10_state.md R60). -/
inductive PortOp where
  /-- (a) Reset and load a ROM. -/
  | load (rom : List Byte)
  /-- (b) One instruction or one key-wait check. -/
  | step
  /-- (c) Decrement the timers. -/
  | tick
  /-- (d) Write the input latch; k is any integer. -/
  | setKey (k : Int) (pressed : Bool)
  /-- (e) Read the display buffer. -/
  | display
  /-- (f) Read the core's status. -/
  | status
  deriving DecidableEq, Repr

/-- The numeric code of a fatal error (60_exceptions.md R300). -/
def errorCode : ErrorKind → Nat
  | .unknownOpcode => 1
  | .stackOverflow => 2
  | .stackUnderflow => 3
  | .memoryOutOfBounds => 4
  | .romTooLarge => 5

/-- The numeric code of the local error (60_exceptions.md R300). -/
def localErrorCode : LocalError → Nat
  | .keyIndexOutOfRange => 16

/-- The tone output: ST ≠ 0 (10_state.md R63). -/
def State.tone (s : State) : Bool := s.st != 0

/-- What `step` and `load` answer, read off the state they leave: `fatal(err.kind)` when Halted, else ok
(00_scope.md R24, 60_exceptions.md R305, R306). -/
def State.outcome (s : State) : Answer :=
  match s.mode, s.err with
  | .halted, some e => .fatal e.kind
  | _, _ => .ok

/-- Copy ROM bytes into memory from an address on (70_reset_and_hazards.md R330). -/
def copyRom : State → Nat → List Byte → State
  | s, _, [] => s
  | s, a, b :: bs => copyRom (s.setByte a b) (a + 1) bs

/-- `load(rom)`, the reset (70_reset_and_hazards.md R330, R333): an oversize ROM halts the core and changes nothing else
(60_exceptions.md R307; the record holds the ROM length and no addr, log entry 15); an ill-formed configuration is refused
(R331); otherwise every part of the state is reset but the keys (10_state.md R44), the launch parameters and the count of
draws. -/
def load (rom : List Byte) (s : State) : Host.Outcome State Fault Refusal :=
  if s.params.wf then
    if rom.length > 3584 then .next (s.halt ⟨.romTooLarge, none, none, .romLength rom.length⟩)
    else .next (copyRom { State.launch s.params with keys := s.keys, draws := s.draws } 0x200 rom)
  else .refused .badConfiguration

/-- A timer one tick later: down by one, floored at 0 (42_keys_timers.md R220). -/
def countDown (t : Byte) : Byte := if t = 0 then 0 else t - 1

/-- `tick()` (42_keys_timers.md R220, R221; nothing when Halted, 60_exceptions.md R306). -/
def tick (s : State) : State :=
  match s.mode with
  | .halted => s
  | _ => { s with dt := countDown s.dt, st := countDown s.st }

/-- The latch with key k written. -/
def writeKey (keys : BitVec 16) (k : KeyIdx) (pressed : Bool) : BitVec 16 :=
  if pressed then keys ||| (1#16 <<< k.val) else keys &&& ~~~(1#16 <<< k.val)

/-- key_event after key k is written: the first released-to-pressed transition during the wait, only with PRESS_EDGE
(42_keys_timers.md R231). s is the state before the write. -/
def keyEventAfter (s : State) (k : KeyIdx) (pressed : Bool) : Option KeyIdx :=
  match s.params.keywaitTrigger, s.mode, s.keyEvent with
  | .pressEdge, .awaitingKey _, none => if pressed && !s.isPressed k then some k else none
  | _, _, e => e

/-- `set_key(k, pressed)` with 0 ≤ k ≤ 15, in every mode (42_keys_timers.md R230, R231). -/
def pressKey (k : KeyIdx) (pressed : Bool) (s : State) : State :=
  { s with keys := writeKey s.keys k pressed, keyEvent := keyEventAfter s k pressed }

/-- `set_key(k, pressed)` for any integer k: outside 0..15 it is a local error and nothing changes
(42_keys_timers.md R230, R232; 60_exceptions.md R308). -/
def setKey (k : Int) (pressed : Bool) (s : State) : State × Answer :=
  if h : 0 ≤ k ∧ k ≤ 15 then (pressKey ⟨k.toNat, by omega⟩ pressed s, .ok)
  else (s, .localError .keyIndexOutOfRange)

/-- `display()`: a copy of disp (10_state.md R62). -/
def display (s : State) : Display := s.disp

/-- `status()`: mode, err and tone (10_state.md R64). -/
def status (s : State) : Mode × Option ErrorRecord × Bool := (s.mode, s.err, s.tone)

/-- The state after a port operation (10_state.md R60). -/
def port (op : PortOp) (s : State) : Host.Outcome State Fault Refusal :=
  match op with
  | .load rom => load rom s
  | .step => step s
  | .tick => .next (tick s)
  | .setKey k pressed => .next (setKey k pressed s).1
  | .display => .next s
  | .status => .next s

/-- What a port operation that took state s to state t answers (10_state.md R60, 00_scope.md R24). -/
def portAnswer (op : PortOp) (s t : State) : Answer :=
  match op with
  | .load _ => t.outcome
  | .step => t.outcome
  | .tick => .ok
  | .setKey k pressed => (setKey k pressed s).2
  | .display => .grid (display s)
  | .status => .report (status s).1 (status s).2.1 (status s).2.2

/-- A sequence of port operations in the order the host chose (10_state.md R66, 70_reset_and_hazards.md R350). -/
def portRun : List PortOp → State → Host.Outcome State Fault Refusal
  | [], s => .next s
  | op :: ops, s =>
    match port op s with
    | .next t => portRun ops t
    | .fault f => .fault f
    | .refused r => .refused r

end Sys2Proof.Machine
end

