-- ==== Sys2Proof/Safety.lean ====
section
/-! DEFINITION. The terms the statements use: taking a fatal error, the registers an instruction may write, the pixels of a
sprite, and the invariant of the core. -/

namespace Sys2Proof.Machine

/-- An outcome takes a fatal error: it is a next state in mode Halted with that error record. Nothing is said of the rest of
a halted core, as 60_exceptions.md R305 and 93_implementation_defined.md U3 ask. -/
def Raises (o : Host.Outcome State Fault Refusal) (e : ErrorRecord) : Prop :=
  ∃ t, o = .next t ∧ t.mode = .halted ∧ t.err = some e

/-- Memory is in canonical form. -/
def State.MemoryCanonical (s : State) : Prop := Memory.wf (initByte s.params) s.mem = true

/-- The byte MEM_INIT gives an address (00_scope.md R19). -/
def memInitByte (p : Params) (a : Nat) : Byte := memoryRead (fun _ => 0x00) p.memInit a

/-- Instruction i writes register Vk: its destination, and VF for the flag writers of 10_state.md R31. -/
def writesReg (p : Params) : Instr → RegIdx → Bool
  | .cls, _ => false
  | .ret, _ => false
  | .jp _, _ => false
  | .call _, _ => false
  | .seImm _ _, _ => false
  | .sneImm _ _, _ => false
  | .seReg _ _, _ => false
  | .ldImm x _, k => k == x
  | .addImm x _, k => k == x
  | .ldReg x _, k => k == x
  | .orReg x _, k => k == x || (p.logicVfReset && k == regVF)
  | .andReg x _, k => k == x || (p.logicVfReset && k == regVF)
  | .xorReg x _, k => k == x || (p.logicVfReset && k == regVF)
  | .addReg x _, k => k == x || k == regVF
  | .subReg x _, k => k == x || k == regVF
  | .shr x _, k => k == x || k == regVF
  | .subn x _, k => k == x || k == regVF
  | .shl x _, k => k == x || k == regVF
  | .sneReg _ _, _ => false
  | .ldI _, _ => false
  | .jpV0 _, _ => false
  | .rnd x _, k => k == x
  | .drw _ _ _, k => k == regVF
  | .skp _, _ => false
  | .sknp _, _ => false
  | .ldVxDt x, k => k == x
  | .ldVxK x, k => k == x
  | .ldDtVx _, _ => false
  | .ldStVx _, _ => false
  | .addI _, _ => false
  | .ldF _, _ => false
  | .ldB _, _ => false
  | .stRegs _, _ => false
  | .ldRegs x, k => decide (k ≤ x)

/-- The sprite of DXYN in state s has a 1 at row r and column c of the display: with dr and dc the distances down and right
from (Vx mod 64, Vy mod 32), wrapping, dr < N, dc < 8 and bit 7 − dc of the byte at I + dr is 1 (41_display.md R180). -/
def SpriteBit (s : State) (x y : RegIdx) (n : BitVec 4) (r : RowIdx) (c : ColIdx) : Prop :=
  let dr := (r.val + 32 - (s.getV y).toNat % 32) % 32
  let dc := (c.val + 64 - (s.getV x).toNat % 64) % 64
  dr < n.toNat ∧ dc < 8 ∧ (s.byteAt (s.iReg.toNat + dr)).getLsbD (7 - dc) = true

/-- The invariant of the core. Of a halted core it says only that it has an error record, and the forms of the model's own
data (93_implementation_defined.md U3). -/
structure State.Inv (s : State) : Prop where
  /-- Memory is in canonical form. -/
  memory : s.MemoryCanonical
  /-- err is none exactly while the mode is Running or AwaitingKey (10_state.md R45). -/
  record : s.err ≠ none ↔ s.mode = .halted
  /-- 0 ≤ SP ≤ 16 (10_state.md R37). -/
  depth : s.mode ≠ .halted → s.sp.toNat ≤ 16
  /-- key_event is none with LEVEL (10_state.md R43). -/
  levelEvent : s.params.keywaitTrigger = .level → s.keyEvent = none
  /-- key_event is none while the core runs (42_keys_timers.md R200, R202, R231). -/
  runningEvent : s.mode = .running → s.keyEvent = none
  /-- In mode AwaitingKey(X), pc holds the address of the FX0A word (10_state.md R34, 42_keys_timers.md R201). -/
  waiting : ∀ x, s.mode = .awaitingKey x → fetch s = .ok (encode (.ldVxK x))

end Sys2Proof.Machine
end

