-- ==== Sys2Proof/Certificates/Slice0/Obligations.lean ====
section
/-! DEFINITION. The statements for the provers, from the numbered rules of spec/. A meaning `exec i s` takes the state at the
start of the step, so `s.pc` is fetch_pc. A frame is written `t = { s with … }`: every part of the state not named is
unchanged, all of memory among it unless `mem` is named. -/

open Sys2Proof Sys2Proof.Machine

/-! ### Encoding -/

/-- Decoding the word of any instruction gives it back, with every operand at every value (30_encoding.md R104, R105). -/
def Obligations.DecodeOfEncode : Prop :=
  ∀ (i : Instr) (rest : List Byte), decodeWord (encode i) = .ok i ∧ decode (encodeBytes i ++ rest) = .ok (i, rest)

/-- A legal word has one meaning: it is the word of the instruction it decodes to (30_encoding.md R104, R105). -/
def Obligations.EncodeOfDecode : Prop :=
  ∀ (op : Word) (i : Instr), decodeWord op = .ok i → encode i = op

/-- A word decodes iff a row of the opcode map selects it, its instruction's own row, and no other row does
(30_encoding.md R105). -/
def Obligations.DecodeFollowsTheOpcodeMap : Prop :=
  ∀ op : Word,
    ((∃ i, decodeWord op = .ok i) ↔ ∃ r ∈ opcodeMap, op &&& r.mask = r.fixed) ∧
    (∀ i, decodeWord op = .ok i → op &&& (Instr.row i).mask = (Instr.row i).fixed) ∧
    (∀ q ∈ opcodeMap, ∀ r ∈ opcodeMap, op &&& q.mask = q.fixed → op &&& r.mask = r.fixed → q = r)

/-- The illegal words are the six families of 30_encoding.md R106, and each is rejected with its own word. -/
def Obligations.IllegalWordsAreTheSixFamilies : Prop :=
  ∀ op : Word,
    (decodeWord op = .error (.illegal op) ↔
      (op.toNat / 4096 = 0x0 ∧ op.toNat ≠ 0x00E0 ∧ op.toNat ≠ 0x00EE) ∨
      (op.toNat / 4096 = 0x5 ∧ op.toNat % 16 ≠ 0) ∨
      (op.toNat / 4096 = 0x8 ∧ op.toNat % 16 ∈ [0x8, 0x9, 0xA, 0xB, 0xC, 0xD, 0xF]) ∨
      (op.toNat / 4096 = 0x9 ∧ op.toNat % 16 ≠ 0) ∨
      (op.toNat / 4096 = 0xE ∧ op.toNat % 256 ∉ [0x9E, 0xA1]) ∨
      (op.toNat / 4096 = 0xF ∧ op.toNat % 256 ∉ [0x07, 0x0A, 0x15, 0x18, 0x1E, 0x29, 0x33, 0x55, 0x65])) ∧
    (∀ e, decodeWord op = .error e → e = .illegal op)

/-- Words written out bit by bit from 30_encoding.md R105, one of each format and each family, and a SUPER-CHIP word. -/
def Obligations.SampleWordsDecode : Prop :=
  decodeWord 0b0000000011101110#16 = .ok .ret ∧
  decodeWord 0b0010001000010000#16 = .ok (.call 0x210) ∧
  decodeWord 0b0011000000000101#16 = .ok (.seImm 0 0x05) ∧
  decodeWord 0b0110101000111100#16 = .ok (.ldImm 0xA 0x3C) ∧
  decodeWord 0b1000000100101110#16 = .ok (.shl 1 2) ∧
  decodeWord 0b1010001100000000#16 = .ok (.ldI 0x300) ∧
  decodeWord 0b1101000000010101#16 = .ok (.drw 0 1 5) ∧
  decodeWord 0b1110000110011110#16 = .ok (.skp 1) ∧
  decodeWord 0b1111001001010101#16 = .ok (.stRegs 2) ∧
  decodeWord 0b0000000011111110#16 = .error (.illegal 0x00FE)

/-! ### The step cycle -/

/-- When the two bytes at pc, the one at pc the high byte, decode to instruction i, a step of a running core is the meaning
of i at that state; the step adds nothing around it (43_flow.md R240, 20_memory.md R75). -/
def Obligations.StepRunsTheDecodedInstruction : Prop :=
  ∀ (s : State) (i : Instr), s.mode = .running → s.pc.toNat + 1 ≤ 0xFFF →
    decodeWord (wordOfBytes (s.byteAt s.pc.toNat) (s.byteAt (s.pc.toNat + 1))) = .ok i → step s = exec i s

/-- The fetch of 43_flow.md R241, at every pc, odd ones too. -/
def Obligations.FetchReadsTwoBytesOrNamesTheLowestBadAddress : Prop :=
  ∀ s : State, fetch s =
    if s.pc.toNat + 1 > 0xFFF then .error (max s.pc.toNat 0x1000)
    else .ok (s.byteAt s.pc.toNat ++ s.byteAt (s.pc.toNat + 1))

/-- A running core whose fetch leaves memory halts with MemoryOutOfBounds; one that fetches an illegal word halts with
UnknownOpcode (43_flow.md R240, R241; 60_exceptions.md R301, R304, R305). -/
def Obligations.FetchAndDecodeErrorsHalt : Prop :=
  ∀ s : State, s.mode = .running →
    (s.pc.toNat + 1 > 0xFFF →
      Raises (step s) ⟨.memoryOutOfBounds, some s.pc, none, .addr (max s.pc.toNat 0x1000)⟩) ∧
    (s.pc.toNat + 1 ≤ 0xFFF → ∀ op, op = wordOfBytes (s.byteAt s.pc.toNat) (s.byteAt (s.pc.toNat + 1)) →
      Word.legal op = false → Raises (step s) ⟨.unknownOpcode, some s.pc, some op, .nothing⟩)

/-- A halted core: step and tick change nothing, step answers the recorded error again, set_key writes the latch, display
and status read, and only a load leaves Halted (60_exceptions.md R306, 10_state.md R61). -/
def Obligations.HaltedUntilLoad : Prop :=
  ∀ (s : State) (e : ErrorRecord), s.mode = .halted → s.err = some e →
    step s = .next s ∧ portAnswer .step s s = .fatal e.kind ∧
    port .tick s = .next s ∧ portAnswer .tick s s = .ok ∧
    (∀ (k : KeyIdx) (p : Bool), ∃ t, port (.setKey k.val p) s = .next t ∧ t.isPressed k = p) ∧
    portAnswer .display s s = .grid s.disp ∧ portAnswer .status s s = .report .halted (some e) (s.st != 0) ∧
    (∀ (rom : List Byte), s.params.wf = true → rom.length ≤ 3584 → ∃ t, port (.load rom) s = .next t ∧ t.mode = .running) ∧
    (∀ (op : PortOp) (t : State), port op s = .next t → t.mode ≠ .halted → ∃ rom, op = .load rom)

/-- What can halt a running core: a fetch or a block that leaves memory, an illegal word, 2NNN with SP = 16 and 00EE with
SP = 0. The record names fetch_pc, the word if one was fetched, and the lowest address out of range
(60_exceptions.md R302, R303; R301, R304, R305, R309). -/
def Obligations.ErrorsComeOnlyFromTheirCauses : Prop :=
  ∀ s t : State, s.mode = .running → step s = .next t → t.mode = .halted →
    (s.pc.toNat + 1 > 0xFFF ∧ t.err = some ⟨.memoryOutOfBounds, some s.pc, none, .addr (max s.pc.toNat 0x1000)⟩) ∨
    ∃ op, fetch s = .ok op ∧
      ((Word.legal op = false ∧ t.err = some ⟨.unknownOpcode, some s.pc, some op, .nothing⟩) ∨
       (∃ nnn, decodeWord op = .ok (.call nnn) ∧ s.sp = 16 ∧ t.err = some ⟨.stackOverflow, some s.pc, some op, .nothing⟩) ∨
       (decodeWord op = .ok .ret ∧ s.sp = 0 ∧ t.err = some ⟨.stackUnderflow, some s.pc, some op, .nothing⟩) ∨
       (∃ i len, decodeWord op = .ok i ∧
          ((∃ x y n, i = .drw x y n ∧ len = n.toNat) ∨ (∃ x, i = .ldB x ∧ len = 3) ∨
            (∃ x, i = .stRegs x ∧ len = x.val + 1) ∨ (∃ x, i = .ldRegs x ∧ len = x.val + 1)) ∧
          0 < len ∧ s.iReg.toNat + len - 1 > 0xFFF ∧
          t.err = some ⟨.memoryOutOfBounds, some s.pc, some op, .addr (max s.iReg.toNat 0x1000)⟩))

/-! ### ALU instructions -/

/-- 6XNN, 8XY0 and FX07 copy a byte into Vx and touch nothing else (40_alu.md R132, R134; 42_keys_timers.md R206). -/
def Obligations.LoadsAndMovesWriteOneRegister : Prop :=
  ∀ (s : State) (x y : RegIdx) (nn : Byte),
    (∃ t, exec (.ldImm x nn) s = .next t ∧ t.getV x = nn ∧ (∀ k, k ≠ x → t.getV k = s.getV k) ∧
      t = { s with v := t.v, pc := s.pc + 2 }) ∧
    (∃ t, exec (.ldReg x y) s = .next t ∧ t.getV x = s.getV y ∧ (∀ k, k ≠ x → t.getV k = s.getV k) ∧
      t = { s with v := t.v, pc := s.pc + 2 }) ∧
    (∃ t, exec (.ldVxDt x) s = .next t ∧ t.getV x = s.dt ∧ (∀ k, k ≠ x → t.getV k = s.getV k) ∧
      t = { s with v := t.v, pc := s.pc + 2 }) ∧
    (encode (.ldImm x nn)).toNat = 0x6000 + 0x100 * x.val + nn.toNat ∧
    (encode (.ldReg x y)).toNat = 0x8000 + 0x100 * x.val + 0x10 * y.val ∧
    (encode (.ldVxDt x)).toNat = 0xF007 + 0x100 * x.val

/-- 7XNN adds modulo 256 and writes no flag (40_alu.md R133). -/
def Obligations.AddImmediateWrapsWithoutFlag : Prop :=
  ∀ (s : State) (x : RegIdx) (nn : Byte),
    (∃ t, exec (.addImm x nn) s = .next t ∧ (t.getV x).toNat = ((s.getV x).toNat + nn.toNat) % 256 ∧
      (∀ k, k ≠ x → t.getV k = s.getV k) ∧ t = { s with v := t.v, pc := s.pc + 2 }) ∧
    (encode (.addImm x nn)).toNat = 0x7000 + 0x100 * x.val + nn.toNat

/-- 8XY1, 8XY2 and 8XY3 combine the two registers bit by bit; VF is cleared after the result iff LOGIC_VF_RESET
(40_alu.md R135–R137, 00_scope.md R16). -/
def Obligations.LogicInstructionsCombineBits : Prop :=
  ∀ (s : State) (x y : RegIdx),
    (∃ t, exec (.orReg x y) s = .next t ∧
      (x ≠ regVF ∨ s.params.logicVfReset = false → t.getV x = s.getV x ||| s.getV y) ∧
      (s.params.logicVfReset = true → t.getV regVF = 0x00) ∧
      (∀ k, k ≠ x → (k ≠ regVF ∨ s.params.logicVfReset = false) → t.getV k = s.getV k) ∧
      t = { s with v := t.v, pc := s.pc + 2 }) ∧
    (∃ t, exec (.andReg x y) s = .next t ∧
      (x ≠ regVF ∨ s.params.logicVfReset = false → t.getV x = s.getV x &&& s.getV y) ∧
      (s.params.logicVfReset = true → t.getV regVF = 0x00) ∧
      (∀ k, k ≠ x → (k ≠ regVF ∨ s.params.logicVfReset = false) → t.getV k = s.getV k) ∧
      t = { s with v := t.v, pc := s.pc + 2 }) ∧
    (∃ t, exec (.xorReg x y) s = .next t ∧
      (x ≠ regVF ∨ s.params.logicVfReset = false → t.getV x = s.getV x ^^^ s.getV y) ∧
      (s.params.logicVfReset = true → t.getV regVF = 0x00) ∧
      (∀ k, k ≠ x → (k ≠ regVF ∨ s.params.logicVfReset = false) → t.getV k = s.getV k) ∧
      t = { s with v := t.v, pc := s.pc + 2 }) ∧
    (encode (.orReg x y)).toNat = 0x8001 + 0x100 * x.val + 0x10 * y.val ∧
    (encode (.andReg x y)).toNat = 0x8002 + 0x100 * x.val + 0x10 * y.val ∧
    (encode (.xorReg x y)).toNat = 0x8003 + 0x100 * x.val + 0x10 * y.val

/-- 8XY4: the sum modulo 256 in Vx and the carry in VF, computed from the old operands; with X = F the carry stays
(40_alu.md R130, R131, R138). -/
def Obligations.AddRegistersSetsCarry : Prop :=
  ∀ (s : State) (x y : RegIdx),
    (∃ t, exec (.addReg x y) s = .next t ∧
      (x ≠ regVF → (t.getV x).toNat = ((s.getV x).toNat + (s.getV y).toNat) % 256) ∧
      t.getV regVF = (if (s.getV x).toNat + (s.getV y).toNat > 255 then 0x01 else 0x00) ∧
      (∀ k, k ≠ x → k ≠ regVF → t.getV k = s.getV k) ∧ t = { s with v := t.v, pc := s.pc + 2 }) ∧
    (encode (.addReg x y)).toNat = 0x8004 + 0x100 * x.val + 0x10 * y.val

/-- 8XY5 and 8XY7: the difference modulo 256 in Vx and the not-borrow in VF, from the old operands; with X = F the flag
stays (40_alu.md R130, R131, R139, R141). -/
def Obligations.SubtractionsSetNotBorrow : Prop :=
  ∀ (s : State) (x y : RegIdx),
    (∃ t, exec (.subReg x y) s = .next t ∧
      (x ≠ regVF → (t.getV x).toNat = (256 + (s.getV x).toNat - (s.getV y).toNat) % 256) ∧
      t.getV regVF = (if (s.getV x).toNat ≥ (s.getV y).toNat then 0x01 else 0x00) ∧
      (∀ k, k ≠ x → k ≠ regVF → t.getV k = s.getV k) ∧ t = { s with v := t.v, pc := s.pc + 2 }) ∧
    (∃ t, exec (.subn x y) s = .next t ∧
      (x ≠ regVF → (t.getV x).toNat = (256 + (s.getV y).toNat - (s.getV x).toNat) % 256) ∧
      t.getV regVF = (if (s.getV y).toNat ≥ (s.getV x).toNat then 0x01 else 0x00) ∧
      (∀ k, k ≠ x → k ≠ regVF → t.getV k = s.getV k) ∧ t = { s with v := t.v, pc := s.pc + 2 }) ∧
    (encode (.subReg x y)).toNat = 0x8005 + 0x100 * x.val + 0x10 * y.val ∧
    (encode (.subn x y)).toNat = 0x8007 + 0x100 * x.val + 0x10 * y.val

/-- 8XY6 and 8XYE: the source is Vy or Vx by SHIFT_SRC; Vx gets it halved or doubled modulo 256 and VF the bit shifted out
(40_alu.md R131, R140, R142; 00_scope.md R15). -/
def Obligations.ShiftsFollowShiftSrc : Prop :=
  ∀ (s : State) (x y : RegIdx) (src : Byte), src = (if s.params.shiftSrc = .vy then s.getV y else s.getV x) →
    (∃ t, exec (.shr x y) s = .next t ∧ (x ≠ regVF → (t.getV x).toNat = src.toNat / 2) ∧
      (t.getV regVF).toNat = src.toNat % 2 ∧
      (∀ k, k ≠ x → k ≠ regVF → t.getV k = s.getV k) ∧ t = { s with v := t.v, pc := s.pc + 2 }) ∧
    (∃ t, exec (.shl x y) s = .next t ∧ (x ≠ regVF → (t.getV x).toNat = 2 * src.toNat % 256) ∧
      (t.getV regVF).toNat = src.toNat / 128 ∧
      (∀ k, k ≠ x → k ≠ regVF → t.getV k = s.getV k) ∧ t = { s with v := t.v, pc := s.pc + 2 }) ∧
    (encode (.shr x y)).toNat = 0x8006 + 0x100 * x.val + 0x10 * y.val ∧
    (encode (.shl x y)).toNat = 0x800E + 0x100 * x.val + 0x10 * y.val

/-- CXNN: Vx is the drawn byte masked by NN, whatever byte is drawn, and no bit outside NN is set (40_alu.md R143). The
count of draws is the model's own (log entry 4). -/
def Obligations.RandomByteIsMasked : Prop :=
  ∀ (s : State) (x : RegIdx) (nn : Byte),
    (∃ t r, exec (.rnd x nn) s = .next t ∧ r = Config.freeByte s.draws ∧ t.getV x = r &&& nn ∧ t.getV x &&& ~~~nn = 0x00 ∧
      (∀ k, k ≠ x → t.getV k = s.getV k) ∧ t = { s with v := t.v, pc := s.pc + 2, draws := s.draws + 1 }) ∧
    (encode (.rnd x nn)).toNat = 0xC000 + 0x100 * x.val + nn.toNat

/-! ### Display -/

/-- 00E0 turns every pixel off and changes nothing else but pc (41_display.md R182). -/
def Obligations.ClearTurnsEveryPixelOff : Prop :=
  (∀ s : State, ∃ t, exec .cls s = .next t ∧ (∀ r c, Display.pixel t.disp r c = false) ∧
    t = { s with disp := t.disp, pc := s.pc + 2 }) ∧
  encode .cls = 0x00E0

/-- DXYN inside memory: each pixel is XORed with the sprite's bit there, wrapping at both edges, VF is 1 iff a pixel of the
sprite was on, and nothing else changes; with N = 0 there is no condition on I. A sprite that leaves memory halts the core
(41_display.md R180, R181, R183; of a halted core only err and mode are stated, 93_implementation_defined.md U3). -/
def Obligations.DrawXorsTheSprite : Prop :=
  ∀ (s : State) (x y : RegIdx) (n : BitVec 4),
    (n.toNat = 0 ∨ s.iReg.toNat + n.toNat - 1 ≤ 0xFFF → ∃ t, exec (.drw x y n) s = .next t ∧
      (∀ r c, SpriteBit s x y n r c → Display.pixel t.disp r c = !Display.pixel s.disp r c) ∧
      (∀ r c, ¬ SpriteBit s x y n r c → Display.pixel t.disp r c = Display.pixel s.disp r c) ∧
      ((∃ r c, SpriteBit s x y n r c ∧ Display.pixel s.disp r c = true) → t.getV regVF = 0x01) ∧
      ((∀ r c, SpriteBit s x y n r c → Display.pixel s.disp r c = false) → t.getV regVF = 0x00) ∧
      (∀ k, k ≠ regVF → t.getV k = s.getV k) ∧
      t = { s with disp := t.disp, v := t.v, pc := s.pc + 2 }) ∧
    (0 < n.toNat → s.iReg.toNat + n.toNat - 1 > 0xFFF → Raises (exec (.drw x y n) s)
      ⟨.memoryOutOfBounds, some s.pc, some (encode (.drw x y n)), .addr (max s.iReg.toNat 0x1000)⟩) ∧
    (encode (.drw x y n)).toNat = 0xD000 + 0x100 * x.val + 0x10 * y.val + n.toNat

/-- Drawing the same sprite twice at the same place restores the display, and the second draw collides iff a pixel of the
sprite was off before the first: from the pseudocode of 41_display.md R183. Its corner case says "if the sprite has any set
bit", which holds where those pixels were off (log entry 9). X and Y are not F, since the first draw writes VF. -/
def Obligations.DrawTwiceRestoresTheDisplay : Prop :=
  ∀ (s t : State) (x y : RegIdx) (n : BitVec 4), x ≠ regVF → y ≠ regVF →
    exec (.drw x y n) s = .next t → (n.toNat = 0 ∨ s.iReg.toNat + n.toNat - 1 ≤ 0xFFF) →
    ∃ u, exec (.drw x y n) t = .next u ∧ u.disp = s.disp ∧
      ((∃ r c, SpriteBit s x y n r c ∧ Display.pixel s.disp r c = false) → u.getV regVF = 0x01) ∧
      ((∀ r c, SpriteBit s x y n r c → Display.pixel s.disp r c = true) → u.getV regVF = 0x00)

/-- Only load, 00E0 and DXYN change a pixel, over all six ports (41_display.md R184). -/
def Obligations.OnlyClearDrawAndLoadWriteTheDisplay : Prop :=
  ∀ (op : PortOp) (s t : State), port op s = .next t → t.mode ≠ .halted → t.disp ≠ s.disp →
    (∃ rom, op = .load rom) ∨
    (op = .step ∧ s.mode = .running ∧ ∃ w, fetch s = .ok w ∧
      (decodeWord w = .ok .cls ∨ ∃ x y n, decodeWord w = .ok (.drw x y n)))

/-! ### Key wait, key skips and timers -/

/-- EX9E and EXA1 skip on the key named by the low nibble of Vx, pressed or not pressed, and change only pc
(42_keys_timers.md R204, R205). -/
def Obligations.KeySkipsTestTheLatch : Prop :=
  ∀ (s : State) (x : RegIdx),
    exec (.skp x) s =
      .next { s with pc := if s.keys.getLsbD ((s.getV x).toNat % 16) then s.pc + 4 else s.pc + 2 } ∧
    exec (.sknp x) s =
      .next { s with pc := if s.keys.getLsbD ((s.getV x).toNat % 16) then s.pc + 2 else s.pc + 4 } ∧
    (encode (.skp x)).toNat = 0xE09E + 0x100 * x.val ∧ (encode (.sknp x)).toNat = 0xE0A1 + 0x100 * x.val

/-- FX15 and FX18 load the timers from Vx and change nothing else but pc; the tone is on iff ST ≠ 0
(42_keys_timers.md R207, R208; 10_state.md R63). -/
def Obligations.TimerLoadsCopyTheRegister : Prop :=
  ∀ (s : State) (x : RegIdx),
    exec (.ldDtVx x) s = .next { s with dt := s.getV x, pc := s.pc + 2 } ∧
    exec (.ldStVx x) s = .next { s with st := s.getV x, pc := s.pc + 2 } ∧
    (∀ t : State, t.tone = true ↔ t.st ≠ 0x00) ∧
    (encode (.ldDtVx x)).toNat = 0xF015 + 0x100 * x.val ∧ (encode (.ldStVx x)).toNat = 0xF018 + 0x100 * x.val

/-- FX0A: with LEVEL and a key held it completes with the picked key; with LEVEL and no key held, and always with
PRESS_EDGE, it suspends with pc unmoved (42_keys_timers.md R200, R203). The count of draws that KEY_PICK = ANY advances is the
model's own (log entry 4). -/
def Obligations.KeyWaitCompletesOrSuspends : Prop :=
  ∀ (s : State) (x : RegIdx),
    (∀ k : KeyIdx, s.params.keywaitTrigger = .level → s.params.keyPick = .lowest → s.isPressed k = true →
      (∀ j : KeyIdx, s.isPressed j = true → k ≤ j) →
      ∃ t, exec (.ldVxK x) s = .next t ∧ (t.getV x).toNat = k.val ∧ (∀ r, r ≠ x → t.getV r = s.getV r) ∧
        t = { s with v := t.v, pc := s.pc + 2 }) ∧
    (s.params.keywaitTrigger = .level → s.params.keyPick = .any → (∃ k, s.isPressed k = true) →
      ∃ (t : State) (k : KeyIdx), s.isPressed k = true ∧ exec (.ldVxK x) s = .next t ∧ (t.getV x).toNat = k.val ∧
        (∀ r, r ≠ x → t.getV r = s.getV r) ∧ t = { s with v := t.v, pc := s.pc + 2, draws := s.draws + 1 }) ∧
    (s.params.keywaitTrigger = .pressEdge ∨ (∀ k, s.isPressed k = false) →
      exec (.ldVxK x) s = .next { s with mode := .awaitingKey x, keyEvent := none }) ∧
    (encode (.ldVxK x)).toNat = 0xF00A + 0x100 * x.val

/-- While FX0A waits with no key to take, a step changes nothing and answers ok, the timers count on, the latch is written,
and pc stays at the FX0A word (42_keys_timers.md R201, 10_state.md R34). The invariant is assumed, as no run leaves it. -/
def Obligations.KeyWaitHolds : Prop :=
  ∀ (s : State) (x : RegIdx), s.Inv → s.mode = .awaitingKey x →
    (s.params.keywaitTrigger = .level ∧ (∀ k, s.isPressed k = false)) ∨
      (s.params.keywaitTrigger = .pressEdge ∧ s.keyEvent = none) →
    step s = .next s ∧ portAnswer .step s s = .ok ∧ fetch s = .ok (encode (.ldVxK x)) ∧
    (∃ t, port .tick s = .next t ∧ t.dt.toNat = s.dt.toNat - 1 ∧ t.st.toNat = s.st.toNat - 1 ∧
      t = { s with dt := t.dt, st := t.st }) ∧
    (∀ (k : KeyIdx) (p : Bool), ∃ t, port (.setKey k.val p) s = .next t ∧ t.isPressed k = p ∧
      t = { s with keys := t.keys, keyEvent := t.keyEvent })

/-- A waiting core with a key to take writes it to Vx, advances pc by 2 once, runs again and clears key_event, and does
nothing else; with no key to take it changes nothing (42_keys_timers.md R202, R203). The count of draws that
KEY_PICK = ANY advances is the model's own (log entry 4). -/
def Obligations.KeyWaitResumes : Prop :=
  ∀ (s : State) (x : RegIdx), s.mode = .awaitingKey x →
    (∀ k : KeyIdx, s.params.keywaitTrigger = .level → s.params.keyPick = .lowest → s.isPressed k = true →
      (∀ j : KeyIdx, s.isPressed j = true → k ≤ j) →
      ∃ t, step s = .next t ∧ (t.getV x).toNat = k.val ∧ (∀ r, r ≠ x → t.getV r = s.getV r) ∧
        t = { s with v := t.v, pc := s.pc + 2, mode := .running, keyEvent := none }) ∧
    (s.params.keywaitTrigger = .level → s.params.keyPick = .any → (∃ k, s.isPressed k = true) →
      ∃ (t : State) (k : KeyIdx), s.isPressed k = true ∧ step s = .next t ∧ (t.getV x).toNat = k.val ∧
        (∀ r, r ≠ x → t.getV r = s.getV r) ∧
        t = { s with v := t.v, pc := s.pc + 2, mode := .running, keyEvent := none, draws := s.draws + 1 }) ∧
    (∀ k : KeyIdx, s.params.keywaitTrigger = .pressEdge → s.keyEvent = some k →
      ∃ t, step s = .next t ∧ (t.getV x).toNat = k.val ∧ (∀ r, r ≠ x → t.getV r = s.getV r) ∧
        t = { s with v := t.v, pc := s.pc + 2, mode := .running, keyEvent := none }) ∧
    (s.params.keywaitTrigger = .level → (∀ k, s.isPressed k = false) → step s = .next s) ∧
    (s.params.keywaitTrigger = .pressEdge → s.keyEvent = none → step s = .next s) ∧
    (∀ t, step s = .next t → portAnswer .step s t = .ok)

/-- tick takes each timer down by one, floored at 0, in modes Running and AwaitingKey, and changes nothing else;
in mode Halted it does nothing (42_keys_timers.md R220, R221). -/
def Obligations.TickCountsTimersDown : Prop :=
  ∀ s : State,
    (s.mode = .halted → port .tick s = .next s) ∧
    (s.mode ≠ .halted → ∃ t, port .tick s = .next t ∧ t.dt.toNat = s.dt.toNat - 1 ∧ t.st.toNat = s.st.toNat - 1 ∧
      t = { s with dt := t.dt, st := t.st } ∧ portAnswer .tick s t = .ok)

/-- set_key with a key 0..15 writes that key and, with PRESS_EDGE, the first press of a wait into key_event; nothing else
changes (42_keys_timers.md R230, R231). -/
def Obligations.SetKeyWritesTheLatch : Prop :=
  ∀ (s : State) (k : KeyIdx) (p : Bool),
    ∃ t, port (.setKey k.val p) s = .next t ∧ portAnswer (.setKey k.val p) s t = .ok ∧
      (∀ j, t.isPressed j = if j = k then p else s.isPressed j) ∧
      (s.params.keywaitTrigger = .pressEdge ∧ (∃ x, s.mode = .awaitingKey x) ∧ s.isPressed k = false ∧ p = true ∧
        s.keyEvent = none → t.keyEvent = some k) ∧
      (¬ (s.params.keywaitTrigger = .pressEdge ∧ (∃ x, s.mode = .awaitingKey x) ∧ s.isPressed k = false ∧ p = true ∧
        s.keyEvent = none) → t.keyEvent = s.keyEvent) ∧
      t = { s with keys := t.keys, keyEvent := t.keyEvent }

/-- set_key with a key outside 0..15 answers the local error and changes nothing (42_keys_timers.md R232, 60_exceptions.md
R308). -/
def Obligations.SetKeyRejectsOtherKeys : Prop :=
  ∀ (s : State) (k : Int) (p : Bool), k < 0 ∨ k > 15 →
    port (.setKey k p) s = .next s ∧ portAnswer (.setKey k p) s s = .localError .keyIndexOutOfRange

/-! ### Flow -/

/-- 1NNN and BNNN change only pc: to NNN, and to NNN + V0 without a wrap. Neither faults; a target that cannot be fetched
faults at the next fetch (43_flow.md R243, R246). -/
def Obligations.JumpsSetThePc : Prop :=
  ∀ (s : State) (nnn : Addr12),
    (∃ t, exec (.jp nnn) s = .next t ∧ t.pc.toNat = nnn.toNat ∧ t = { s with pc := t.pc } ∧
      (t.pc.toNat ≥ 0xFFF → fetch t = .error (max t.pc.toNat 0x1000))) ∧
    (∃ t, exec (.jpV0 nnn) s = .next t ∧ t.pc.toNat = nnn.toNat + (s.getV 0).toNat ∧ t = { s with pc := t.pc } ∧
      (t.pc.toNat > 0xFFE → fetch t = .error (max t.pc.toNat 0x1000))) ∧
    (encode (.jp nnn)).toNat = 0x1000 + nnn.toNat ∧ (encode (.jpV0 nnn)).toNat = 0xB000 + nnn.toNat

/-- 2NNN pushes the address of the next word and jumps; with SP = 16 it halts with StackOverflow (43_flow.md R244,
60_exceptions.md R302). -/
def Obligations.CallPushesTheNextAddress : Prop :=
  ∀ (s : State) (nnn : Addr12),
    (∀ h : s.sp.toNat < 16, ∃ t, exec (.call nnn) s = .next t ∧ t.stack[s.sp.toNat] = s.pc + 2 ∧
      (∀ j : Fin 16, j.val ≠ s.sp.toNat → t.stack[j] = s.stack[j]) ∧ t.sp.toNat = s.sp.toNat + 1 ∧
      t.pc.toNat = nnn.toNat ∧ t = { s with stack := t.stack, sp := t.sp, pc := t.pc }) ∧
    (s.sp = 16 → Raises (exec (.call nnn) s) ⟨.stackOverflow, some s.pc, some (encode (.call nnn)), .nothing⟩) ∧
    (encode (.call nnn)).toNat = 0x2000 + nnn.toNat

/-- 00EE pops the return address and leaves the stack entries as they are; with SP = 0 it halts with StackUnderflow
(43_flow.md R245, 60_exceptions.md R303). -/
def Obligations.ReturnPopsTheAddress : Prop :=
  (∀ s : State,
    (∀ (_ : 0 < s.sp.toNat) (h : s.sp.toNat - 1 < 16), ∃ t, exec .ret s = .next t ∧ t.pc = s.stack[s.sp.toNat - 1] ∧
      t.sp.toNat = s.sp.toNat - 1 ∧ t = { s with sp := t.sp, pc := t.pc }) ∧
    (s.sp = 0 → Raises (exec .ret s) ⟨.stackUnderflow, some s.pc, some (encode .ret), .nothing⟩)) ∧
  encode .ret = 0x00EE

/-- With SP above 16, which 10_state.md R37 rules out and no run reaches, there is no stack entry to push or pop and the model
stops by name (the model's choice, log entry 6). -/
def Obligations.StackPointerAboveSixteenStops : Prop :=
  ∀ (s : State) (nnn : Addr12), 16 < s.sp.toNat →
    exec (.call nnn) s = .fault .noSuchStackEntry ∧ exec .ret s = .fault .noSuchStackEntry

/-- A call and then a return restore pc to the address after the call, at stack depths 1 through 16, whatever the callee
changed outside the stack; at depth 17 the call halts (43_flow.md R244, R245). -/
def Obligations.CallThenReturnComesBack : Prop :=
  ∀ (s t u : State) (nnn : Addr12), s.sp.toNat < 16 → exec (.call nnn) s = .next t → u.stack = t.stack → u.sp = t.sp →
    ∃ w, exec .ret u = .next w ∧ w.pc = s.pc + 2 ∧ w.sp = s.sp

/-- 3XNN, 4XNN, 5XY0 and 9XY0 change only pc: 4 on if the comparison holds, else 2 on (43_flow.md R247–R250). -/
def Obligations.CompareSkipsMoveOnlyThePc : Prop :=
  ∀ (s : State) (x y : RegIdx) (nn : Byte),
    exec (.seImm x nn) s = .next { s with pc := if s.getV x = nn then s.pc + 4 else s.pc + 2 } ∧
    exec (.sneImm x nn) s = .next { s with pc := if s.getV x = nn then s.pc + 2 else s.pc + 4 } ∧
    exec (.seReg x y) s = .next { s with pc := if s.getV x = s.getV y then s.pc + 4 else s.pc + 2 } ∧
    exec (.sneReg x y) s = .next { s with pc := if s.getV x = s.getV y then s.pc + 2 else s.pc + 4 } ∧
    (encode (.seImm x nn)).toNat = 0x3000 + 0x100 * x.val + nn.toNat ∧
    (encode (.sneImm x nn)).toNat = 0x4000 + 0x100 * x.val + nn.toNat ∧
    (encode (.seReg x y)).toNat = 0x5000 + 0x100 * x.val + 0x10 * y.val ∧
    (encode (.sneReg x y)).toNat = 0x9000 + 0x100 * x.val + 0x10 * y.val

/-- Each of the six skips adds 2 or 4 to pc and changes nothing else, whatever memory holds at the word passed over; a target
out of range faults at the next fetch, not at the skip (43_flow.md R251). -/
def Obligations.SkipsReadNothingTheyPass : Prop :=
  ∀ (i : Instr) (s : State),
    ((∃ x nn, i = .seImm x nn) ∨ (∃ x nn, i = .sneImm x nn) ∨ (∃ x y, i = .seReg x y) ∨ (∃ x y, i = .sneReg x y) ∨
      (∃ x, i = .skp x) ∨ (∃ x, i = .sknp x)) →
    ∃ t, exec i s = .next t ∧ (t.pc = s.pc + 2 ∨ t.pc = s.pc + 4) ∧ t = { s with pc := t.pc } ∧
      (∀ m, exec i { s with mem := m } = .next { t with mem := m }) ∧
      (t.pc.toNat + 1 > 0xFFF → fetch t = .error (max t.pc.toNat 0x1000))

/-! ### Memory transfers and the index register -/

/-- ANNN, FX1E and FX29 write I and change nothing else but pc; FX1E wraps at 2^16 and FX29 gives the glyph of the low nibble
of Vx (44_memory_ops.md R273–R275). -/
def Obligations.IndexInstructionsWriteI : Prop :=
  ∀ (s : State) (x : RegIdx) (nnn : Addr12),
    (∃ t, exec (.ldI nnn) s = .next t ∧ t.iReg.toNat = nnn.toNat ∧ t = { s with iReg := t.iReg, pc := s.pc + 2 }) ∧
    (∃ t, exec (.addI x) s = .next t ∧ t.iReg.toNat = (s.iReg.toNat + (s.getV x).toNat) % 65536 ∧
      t = { s with iReg := t.iReg, pc := s.pc + 2 }) ∧
    (∃ t, exec (.ldF x) s = .next t ∧
      t.iReg.toNat = (s.params.fontBase + 5 * ((s.getV x).toNat % 16)) % 65536 ∧
      t = { s with iReg := t.iReg, pc := s.pc + 2 }) ∧
    (encode (.ldI nnn)).toNat = 0xA000 + nnn.toNat ∧ (encode (.addI x)).toNat = 0xF01E + 0x100 * x.val ∧
    (encode (.ldF x)).toNat = 0xF029 + 0x100 * x.val

/-- FX29 then points at the glyph that load left there: the five bytes of the digit in FONT, as long as memory is as loaded
at those addresses (44_memory_ops.md R275, 20_memory.md R77). -/
def Obligations.FontAddressPointsAtTheGlyph : Prop :=
  ∀ (p : Params) (b : Byte) (j : Nat), p.wf = true → j < 5 →
    (State.launch p).byteAt (((State.launch p).fontAddr b).toNat + j) = p.font.getD (5 * (b.toNat % 16) + j) 0x00

/-- FX33 stores the hundreds, tens and units of Vx at I, I + 1 and I + 2 and no other byte, and changes nothing else but pc;
with I + 2 > 0xFFF it halts the core (44_memory_ops.md R272; of a halted core only err and mode are stated, U3). -/
def Obligations.BcdStoresThreeDigits : Prop :=
  ∀ (s : State) (x : RegIdx), s.MemoryCanonical →
    (s.iReg.toNat + 2 ≤ 0xFFF → ∃ t, exec (.ldB x) s = .next t ∧
      (t.byteAt s.iReg.toNat).toNat = (s.getV x).toNat / 100 ∧
      (t.byteAt (s.iReg.toNat + 1)).toNat = (s.getV x).toNat / 10 % 10 ∧
      (t.byteAt (s.iReg.toNat + 2)).toNat = (s.getV x).toNat % 10 ∧
      (∀ a, ¬ (s.iReg.toNat ≤ a ∧ a < s.iReg.toNat + 3) → t.byteAt a = s.byteAt a) ∧
      t = { s with mem := t.mem, pc := s.pc + 2 }) ∧
    (s.iReg.toNat + 2 > 0xFFF → Raises (exec (.ldB x) s)
      ⟨.memoryOutOfBounds, some s.pc, some (encode (.ldB x)), .addr (max s.iReg.toNat 0x1000)⟩) ∧
    (encode (.ldB x)).toNat = 0xF033 + 0x100 * x.val

/-- FX55 stores V0..VX at I..I+X and no other byte; I becomes I + X + 1 modulo 2^16 iff INDEX_INCREMENT; nothing else changes
but pc; with I + X > 0xFFF it halts the core (44_memory_ops.md R270, 00_scope.md R17; of a halted core only err and mode are
stated, U3). -/
def Obligations.StoreRegistersCopiesToMemory : Prop :=
  ∀ (s : State) (x : RegIdx), s.MemoryCanonical →
    (s.iReg.toNat + x.val ≤ 0xFFF → ∃ t, exec (.stRegs x) s = .next t ∧
      (∀ k : RegIdx, k ≤ x → t.byteAt (s.iReg.toNat + k.val) = s.getV k) ∧
      (∀ a, ¬ (s.iReg.toNat ≤ a ∧ a < s.iReg.toNat + (x.val + 1)) → t.byteAt a = s.byteAt a) ∧
      t.iReg.toNat = (if s.params.indexIncrement then (s.iReg.toNat + x.val + 1) % 65536 else s.iReg.toNat) ∧
      t = { s with mem := t.mem, iReg := t.iReg, pc := s.pc + 2 }) ∧
    (s.iReg.toNat + x.val > 0xFFF → Raises (exec (.stRegs x) s)
      ⟨.memoryOutOfBounds, some s.pc, some (encode (.stRegs x)), .addr (max s.iReg.toNat 0x1000)⟩) ∧
    (encode (.stRegs x)).toNat = 0xF055 + 0x100 * x.val

/-- FX65 loads V0..VX from I..I+X and no other register; I becomes I + X + 1 modulo 2^16 iff INDEX_INCREMENT; nothing else
changes but pc; with I + X > 0xFFF it halts the core (44_memory_ops.md R271, 00_scope.md R17; of a halted core only err and
mode are stated, U3). -/
def Obligations.LoadRegistersCopiesFromMemory : Prop :=
  ∀ (s : State) (x : RegIdx),
    (s.iReg.toNat + x.val ≤ 0xFFF → ∃ t, exec (.ldRegs x) s = .next t ∧
      (∀ k : RegIdx, k ≤ x → t.getV k = s.byteAt (s.iReg.toNat + k.val)) ∧
      (∀ k : RegIdx, x < k → t.getV k = s.getV k) ∧
      t.iReg.toNat = (if s.params.indexIncrement then (s.iReg.toNat + x.val + 1) % 65536 else s.iReg.toNat) ∧
      t = { s with v := t.v, iReg := t.iReg, pc := s.pc + 2 }) ∧
    (s.iReg.toNat + x.val > 0xFFF → Raises (exec (.ldRegs x) s)
      ⟨.memoryOutOfBounds, some s.pc, some (encode (.ldRegs x)), .addr (max s.iReg.toNat 0x1000)⟩) ∧
    (encode (.ldRegs x)).toNat = 0xF065 + 0x100 * x.val

/-- Registers stored by FX55 come back by FX65 from the same I, whatever happened to the registers in between
(44_memory_ops.md R270, R271). -/
def Obligations.StoreThenLoadRestoresRegisters : Prop :=
  ∀ (s t u : State) (x : RegIdx), s.MemoryCanonical → s.iReg.toNat + x.val ≤ 0xFFF → exec (.stRegs x) s = .next t →
    u.mem = t.mem → u.params = t.params → u.iReg = s.iReg →
    ∃ w, exec (.ldRegs x) u = .next w ∧ ∀ k : RegIdx, k ≤ x → w.getV k = s.getV k

/-- A store is seen by the next fetch of its address: after FX55 with X ≥ 1, a core at pc = I fetches V0 V1
(20_memory.md R83, 70_reset_and_hazards.md R342). -/
def Obligations.StoresAreSeenByTheNextFetch : Prop :=
  ∀ (s t : State) (x : RegIdx), s.MemoryCanonical → s.iReg.toNat + x.val ≤ 0xFFF → 1 ≤ x.val →
    exec (.stRegs x) s = .next t → fetch { t with pc := s.iReg } = .ok (wordOfBytes (s.getV 0) (s.getV 1))

/-! ### Frames over all instructions -/

/-- An instruction that does not halt the core changes no general register but those of `writesReg`: its destination, and VF
for the flag writers (10_state.md R30, R31). -/
def Obligations.OnlyDestinationRegistersChange : Prop :=
  ∀ (i : Instr) (s t : State) (k : RegIdx), exec i s = .next t → t.mode ≠ .halted →
    writesReg s.params i k = false → t.getV k = s.getV k

/-- No instruction but FX33 and FX55 changes a byte of memory (20_memory.md R70, R74). -/
def Obligations.OnlyStoresChangeMemory : Prop :=
  ∀ (i : Instr) (s t : State), exec i s = .next t → t.mode ≠ .halted →
    (∀ x, i ≠ .ldB x) → (∀ x, i ≠ .stRegs x) → ∀ a, t.byteAt a = s.byteAt a

/-- No instruction but 2NNN and 00EE changes SP, none but 2NNN changes a stack entry, none but FX15 changes DT, none but FX18
changes ST, none but ANNN, FX1E, FX29 (and FX55, FX65 with INDEX_INCREMENT) changes I, and none changes keys
(10_state.md R33, R37–R40, R44). -/
def Obligations.SpecialRegistersChangeOnlyByTheirInstructions : Prop :=
  ∀ (i : Instr) (s t : State), exec i s = .next t → t.mode ≠ .halted →
    (t.sp = s.sp ∨ i = .ret ∨ ∃ nnn, i = .call nnn) ∧
    (t.stack = s.stack ∨ ∃ nnn, i = .call nnn) ∧
    (t.dt = s.dt ∨ ∃ x, i = .ldDtVx x) ∧
    (t.st = s.st ∨ ∃ x, i = .ldStVx x) ∧
    (t.iReg = s.iReg ∨ (∃ nnn, i = .ldI nnn) ∨ (∃ x, i = .addI x) ∨ (∃ x, i = .ldF x) ∨
      (s.params.indexIncrement = true ∧ ∃ x, i = .stRegs x ∨ i = .ldRegs x)) ∧
    t.keys = s.keys ∧ (t.mode = s.mode ∨ ∃ x, i = .ldVxK x)

/-- No port operation changes the launch parameters: they are fixed for a launch (10_state.md R46). -/
def Obligations.LaunchParametersNeverChange : Prop :=
  ∀ (ops : List PortOp) (s t : State), portRun ops s = .next t → t.params = s.params

/-- Only set_key changes the latch; load leaves the keys as they are (10_state.md R44, R65). -/
def Obligations.OnlySetKeyWritesTheLatch : Prop :=
  ∀ (op : PortOp) (s t : State), port op s = .next t → t.keys ≠ s.keys → ∃ k p, op = .setKey k p

/-- display and status change nothing and answer the display, and the mode, error record and tone
(10_state.md R62–R64). -/
def Obligations.ReadPortsOnlyRead : Prop :=
  ∀ s : State, port .display s = .next s ∧ portAnswer .display s s = .grid s.disp ∧
    port .status s = .next s ∧ portAnswer .status s s = .report s.mode s.err (decide (s.st.toNat ≠ 0))

/-! ### Reset -/

/-- A load that fits resets the core: registers, stack, timers and display zero, pc 0x200, mode Running, no error and no key
event, memory MEM_INIT with FONT over it and the ROM over both; keys and launch parameters stay. A ROM of more than 3584 bytes
halts the core with RomTooLarge and its length (70_reset_and_hazards.md R330, R332; 60_exceptions.md R307). That the length
is no addr of the record but stands in its place is the model's reading (DEDUCED, log entry 15). -/
def Obligations.LoadResetsTheCore : Prop :=
  ∀ (rom : List Byte) (s : State), s.params.wf = true →
    (rom.length > 3584 → Raises (port (.load rom) s) ⟨.romTooLarge, none, none, .romLength rom.length⟩) ∧
    (rom.length ≤ 3584 → ∃ t, port (.load rom) s = .next t ∧ portAnswer (.load rom) s t = .ok ∧
      (∀ a, a ≤ 0xFFF → t.byteAt a =
        if 0x200 ≤ a ∧ a < 0x200 + rom.length then rom.getD (a - 0x200) 0x00
        else if s.params.fontBase ≤ a ∧ a ≤ s.params.fontBase + 79 then s.params.font.getD (a - s.params.fontBase) 0x00
        else memInitByte s.params a) ∧
      (∀ k, t.getV k = 0x00) ∧ t.iReg = 0x0000 ∧ t.pc = 0x0200 ∧ t.sp = 0 ∧ (∀ j : Fin 16, t.stack[j] = 0x0000) ∧
      t.dt = 0x00 ∧ t.st = 0x00 ∧ (∀ r c, Display.pixel t.disp r c = false) ∧
      t.mode = .running ∧ t.keyEvent = none ∧ t.err = none ∧ t.keys = s.keys ∧ t.params = s.params)

/-- The state after reset, for every setting of the launch parameters: the values of 70_reset_and_hazards.md R330 and every
key released (R334). That `State.reset` takes the spec's default parameters is the model's choice (log entry 2). -/
def Obligations.ResetValues : Prop :=
  (∀ p : Params, ∀ s, s = State.launch p →
    (∀ k, s.getV k = 0x00) ∧ s.iReg = 0x0000 ∧ s.pc = 0x0200 ∧ s.sp = 0 ∧ (∀ j : Fin 16, s.stack[j] = 0x0000) ∧
    s.dt = 0x00 ∧ s.st = 0x00 ∧ (∀ r c, Display.pixel s.disp r c = false) ∧ (∀ k, s.isPressed k = false) ∧
    s.mode = .running ∧ s.keyEvent = none ∧ s.err = none ∧ s.mem = [] ∧ s.params = p) ∧
  State.reset = State.launch Params.standard

/-- A launch configuration whose font leaves memory is refused, not loaded (70_reset_and_hazards.md R331). -/
def Obligations.BadFontBaseIsRefused : Prop :=
  ∀ (rom : List Byte) (s : State), s.params.fontBase + 79 > 0xFFF → port (.load rom) s = .refused .badConfiguration

/-! ### Invariants -/

/-- Reset meets the invariant, for every setting of the launch parameters. -/
def Obligations.ResetMeetsTheInvariant : Prop :=
  (∀ p : Params, (State.launch p).Inv) ∧ State.reset.Inv

/-- Every step from any state that meets the invariant leaves one that meets it. -/
def Obligations.StepKeepsTheInvariant : Prop :=
  ∀ s t : State, s.Inv → step s = .next t → t.Inv

/-- Every sequence of port operations, in any order, keeps the invariant (70_reset_and_hazards.md R350). -/
def Obligations.EveryHostScheduleKeepsTheInvariant : Prop :=
  ∀ (ops : List PortOp) (s t : State), s.Inv → portRun ops s = .next t → t.Inv

/-- From a state that meets the invariant, with a well-formed launch configuration, no sequence of port operations ends in
a fault or a refusal: every instruction and every port has its next state (60_exceptions.md R309, 70_reset_and_hazards.md
R350). -/
def Obligations.NoScheduleStopsTheModel : Prop :=
  ∀ (ops : List PortOp) (s : State), s.Inv → s.params.wf = true → ∃ t, portRun ops s = .next t

/-! ### The error record -/

/-- A new error record, field by field: of a step, fault_pc is pc at its start, opcode the word fetched or none, and addr an
address above 0xFFF exactly for MemoryOutOfBounds; of a load, the kind is RomTooLarge, fault_pc, opcode and addr are none and
the ROM length stands in place of addr; no other port writes one (10_state.md R45; 60_exceptions.md R300, R305, R307). That
the length is no addr is the model's reading (DEDUCED, log entry 15). -/
def Obligations.ErrorRecordsHaveTheirFields : Prop :=
  ∀ (op : PortOp) (s t : State) (e : ErrorRecord), port op s = .next t → t.err = some e → s.err ≠ some e →
    t.mode = .halted ∧
    ((op = .step ∧ e.kind ≠ .romTooLarge ∧ e.faultPc = some s.pc ∧
        (∀ w, fetch s = .ok w → e.opcode = some w) ∧ (∀ a, fetch s = .error a → e.opcode = none ∧ e.addr = some a) ∧
        (e.kind = .memoryOutOfBounds → ∃ a, e.addr = some a ∧ a > 0xFFF) ∧
        (e.kind ≠ .memoryOutOfBounds → e.addr = none ∧ e.info = .nothing)) ∨
      ∃ rom, op = .load rom ∧ e.kind = .romTooLarge ∧ e.faultPc = none ∧ e.opcode = none ∧ e.addr = none ∧
        e.info = .romLength rom.length)
end

