-- ==== Sys2Proof/Laws/State.lean ====
section
/-! SUPPORT. One lemma per field for each named update of the state, and the reads of registers and memory through the
updates that leave them alone, so that no proof unfolds a record update. -/

namespace Sys2Proof.Machine

/-! `setByte` -/

@[simp] theorem State.setByte_v (s : State) (a : Nat) (b : Byte) : (s.setByte a b).v = s.v := rfl

@[simp] theorem State.setByte_iReg (s : State) (a : Nat) (b : Byte) : (s.setByte a b).iReg = s.iReg := rfl

@[simp] theorem State.setByte_pc (s : State) (a : Nat) (b : Byte) : (s.setByte a b).pc = s.pc := rfl

@[simp] theorem State.setByte_sp (s : State) (a : Nat) (b : Byte) : (s.setByte a b).sp = s.sp := rfl

@[simp] theorem State.setByte_stack (s : State) (a : Nat) (b : Byte) : (s.setByte a b).stack = s.stack := rfl

@[simp] theorem State.setByte_dt (s : State) (a : Nat) (b : Byte) : (s.setByte a b).dt = s.dt := rfl

@[simp] theorem State.setByte_st (s : State) (a : Nat) (b : Byte) : (s.setByte a b).st = s.st := rfl

@[simp] theorem State.setByte_mem (s : State) (a : Nat) (b : Byte) : (s.setByte a b).mem = memoryWrite (initByte s.params) s.mem a b := rfl

@[simp] theorem State.setByte_disp (s : State) (a : Nat) (b : Byte) : (s.setByte a b).disp = s.disp := rfl

@[simp] theorem State.setByte_keys (s : State) (a : Nat) (b : Byte) : (s.setByte a b).keys = s.keys := rfl

@[simp] theorem State.setByte_mode (s : State) (a : Nat) (b : Byte) : (s.setByte a b).mode = s.mode := rfl

@[simp] theorem State.setByte_keyEvent (s : State) (a : Nat) (b : Byte) : (s.setByte a b).keyEvent = s.keyEvent := rfl

@[simp] theorem State.setByte_err (s : State) (a : Nat) (b : Byte) : (s.setByte a b).err = s.err := rfl

@[simp] theorem State.setByte_params (s : State) (a : Nat) (b : Byte) : (s.setByte a b).params = s.params := rfl

@[simp] theorem State.setByte_draws (s : State) (a : Nat) (b : Byte) : (s.setByte a b).draws = s.draws := rfl

@[simp] theorem State.setByte_getV (s : State) (a : Nat) (b : Byte) (k : RegIdx) : (s.setByte a b).getV k = s.getV k := rfl

/-! `setV` -/

@[simp] theorem State.setV_v (s : State) (x : RegIdx) (b : Byte) : (s.setV x b).v = s.v.set x b := rfl

@[simp] theorem State.setV_iReg (s : State) (x : RegIdx) (b : Byte) : (s.setV x b).iReg = s.iReg := rfl

@[simp] theorem State.setV_pc (s : State) (x : RegIdx) (b : Byte) : (s.setV x b).pc = s.pc := rfl

@[simp] theorem State.setV_sp (s : State) (x : RegIdx) (b : Byte) : (s.setV x b).sp = s.sp := rfl

@[simp] theorem State.setV_stack (s : State) (x : RegIdx) (b : Byte) : (s.setV x b).stack = s.stack := rfl

@[simp] theorem State.setV_dt (s : State) (x : RegIdx) (b : Byte) : (s.setV x b).dt = s.dt := rfl

@[simp] theorem State.setV_st (s : State) (x : RegIdx) (b : Byte) : (s.setV x b).st = s.st := rfl

@[simp] theorem State.setV_mem (s : State) (x : RegIdx) (b : Byte) : (s.setV x b).mem = s.mem := rfl

@[simp] theorem State.setV_disp (s : State) (x : RegIdx) (b : Byte) : (s.setV x b).disp = s.disp := rfl

@[simp] theorem State.setV_keys (s : State) (x : RegIdx) (b : Byte) : (s.setV x b).keys = s.keys := rfl

@[simp] theorem State.setV_mode (s : State) (x : RegIdx) (b : Byte) : (s.setV x b).mode = s.mode := rfl

@[simp] theorem State.setV_keyEvent (s : State) (x : RegIdx) (b : Byte) : (s.setV x b).keyEvent = s.keyEvent := rfl

@[simp] theorem State.setV_err (s : State) (x : RegIdx) (b : Byte) : (s.setV x b).err = s.err := rfl

@[simp] theorem State.setV_params (s : State) (x : RegIdx) (b : Byte) : (s.setV x b).params = s.params := rfl

@[simp] theorem State.setV_draws (s : State) (x : RegIdx) (b : Byte) : (s.setV x b).draws = s.draws := rfl

@[simp] theorem State.setV_byteAt (s : State) (x : RegIdx) (b : Byte) (m : Nat) : (s.setV x b).byteAt m = s.byteAt m := rfl

/-! `loadRegs` -/

@[simp] theorem State.loadRegs_v (s : State) (bs : List Byte) : (s.loadRegs bs).v = loadRegsFrom s.v 0 bs := rfl

@[simp] theorem State.loadRegs_iReg (s : State) (bs : List Byte) : (s.loadRegs bs).iReg = s.iReg := rfl

@[simp] theorem State.loadRegs_pc (s : State) (bs : List Byte) : (s.loadRegs bs).pc = s.pc := rfl

@[simp] theorem State.loadRegs_sp (s : State) (bs : List Byte) : (s.loadRegs bs).sp = s.sp := rfl

@[simp] theorem State.loadRegs_stack (s : State) (bs : List Byte) : (s.loadRegs bs).stack = s.stack := rfl

@[simp] theorem State.loadRegs_dt (s : State) (bs : List Byte) : (s.loadRegs bs).dt = s.dt := rfl

@[simp] theorem State.loadRegs_st (s : State) (bs : List Byte) : (s.loadRegs bs).st = s.st := rfl

@[simp] theorem State.loadRegs_mem (s : State) (bs : List Byte) : (s.loadRegs bs).mem = s.mem := rfl

@[simp] theorem State.loadRegs_disp (s : State) (bs : List Byte) : (s.loadRegs bs).disp = s.disp := rfl

@[simp] theorem State.loadRegs_keys (s : State) (bs : List Byte) : (s.loadRegs bs).keys = s.keys := rfl

@[simp] theorem State.loadRegs_mode (s : State) (bs : List Byte) : (s.loadRegs bs).mode = s.mode := rfl

@[simp] theorem State.loadRegs_keyEvent (s : State) (bs : List Byte) : (s.loadRegs bs).keyEvent = s.keyEvent := rfl

@[simp] theorem State.loadRegs_err (s : State) (bs : List Byte) : (s.loadRegs bs).err = s.err := rfl

@[simp] theorem State.loadRegs_params (s : State) (bs : List Byte) : (s.loadRegs bs).params = s.params := rfl

@[simp] theorem State.loadRegs_draws (s : State) (bs : List Byte) : (s.loadRegs bs).draws = s.draws := rfl

@[simp] theorem State.loadRegs_byteAt (s : State) (bs : List Byte) (m : Nat) : (s.loadRegs bs).byteAt m = s.byteAt m := rfl

/-! `setI` -/

@[simp] theorem State.setI_v (s : State) (w : Word) : (s.setI w).v = s.v := rfl

@[simp] theorem State.setI_iReg (s : State) (w : Word) : (s.setI w).iReg = w := rfl

@[simp] theorem State.setI_pc (s : State) (w : Word) : (s.setI w).pc = s.pc := rfl

@[simp] theorem State.setI_sp (s : State) (w : Word) : (s.setI w).sp = s.sp := rfl

@[simp] theorem State.setI_stack (s : State) (w : Word) : (s.setI w).stack = s.stack := rfl

@[simp] theorem State.setI_dt (s : State) (w : Word) : (s.setI w).dt = s.dt := rfl

@[simp] theorem State.setI_st (s : State) (w : Word) : (s.setI w).st = s.st := rfl

@[simp] theorem State.setI_mem (s : State) (w : Word) : (s.setI w).mem = s.mem := rfl

@[simp] theorem State.setI_disp (s : State) (w : Word) : (s.setI w).disp = s.disp := rfl

@[simp] theorem State.setI_keys (s : State) (w : Word) : (s.setI w).keys = s.keys := rfl

@[simp] theorem State.setI_mode (s : State) (w : Word) : (s.setI w).mode = s.mode := rfl

@[simp] theorem State.setI_keyEvent (s : State) (w : Word) : (s.setI w).keyEvent = s.keyEvent := rfl

@[simp] theorem State.setI_err (s : State) (w : Word) : (s.setI w).err = s.err := rfl

@[simp] theorem State.setI_params (s : State) (w : Word) : (s.setI w).params = s.params := rfl

@[simp] theorem State.setI_draws (s : State) (w : Word) : (s.setI w).draws = s.draws := rfl

@[simp] theorem State.setI_getV (s : State) (w : Word) (k : RegIdx) : (s.setI w).getV k = s.getV k := rfl

@[simp] theorem State.setI_byteAt (s : State) (w : Word) (m : Nat) : (s.setI w).byteAt m = s.byteAt m := rfl

/-! `setPc` -/

@[simp] theorem State.setPc_v (s : State) (w : Word) : (s.setPc w).v = s.v := rfl

@[simp] theorem State.setPc_iReg (s : State) (w : Word) : (s.setPc w).iReg = s.iReg := rfl

@[simp] theorem State.setPc_pc (s : State) (w : Word) : (s.setPc w).pc = w := rfl

@[simp] theorem State.setPc_sp (s : State) (w : Word) : (s.setPc w).sp = s.sp := rfl

@[simp] theorem State.setPc_stack (s : State) (w : Word) : (s.setPc w).stack = s.stack := rfl

@[simp] theorem State.setPc_dt (s : State) (w : Word) : (s.setPc w).dt = s.dt := rfl

@[simp] theorem State.setPc_st (s : State) (w : Word) : (s.setPc w).st = s.st := rfl

@[simp] theorem State.setPc_mem (s : State) (w : Word) : (s.setPc w).mem = s.mem := rfl

@[simp] theorem State.setPc_disp (s : State) (w : Word) : (s.setPc w).disp = s.disp := rfl

@[simp] theorem State.setPc_keys (s : State) (w : Word) : (s.setPc w).keys = s.keys := rfl

@[simp] theorem State.setPc_mode (s : State) (w : Word) : (s.setPc w).mode = s.mode := rfl

@[simp] theorem State.setPc_keyEvent (s : State) (w : Word) : (s.setPc w).keyEvent = s.keyEvent := rfl

@[simp] theorem State.setPc_err (s : State) (w : Word) : (s.setPc w).err = s.err := rfl

@[simp] theorem State.setPc_params (s : State) (w : Word) : (s.setPc w).params = s.params := rfl

@[simp] theorem State.setPc_draws (s : State) (w : Word) : (s.setPc w).draws = s.draws := rfl

@[simp] theorem State.setPc_getV (s : State) (w : Word) (k : RegIdx) : (s.setPc w).getV k = s.getV k := rfl

@[simp] theorem State.setPc_byteAt (s : State) (w : Word) (m : Nat) : (s.setPc w).byteAt m = s.byteAt m := rfl

/-! `setDt` -/

@[simp] theorem State.setDt_v (s : State) (b : Byte) : (s.setDt b).v = s.v := rfl

@[simp] theorem State.setDt_iReg (s : State) (b : Byte) : (s.setDt b).iReg = s.iReg := rfl

@[simp] theorem State.setDt_pc (s : State) (b : Byte) : (s.setDt b).pc = s.pc := rfl

@[simp] theorem State.setDt_sp (s : State) (b : Byte) : (s.setDt b).sp = s.sp := rfl

@[simp] theorem State.setDt_stack (s : State) (b : Byte) : (s.setDt b).stack = s.stack := rfl

@[simp] theorem State.setDt_dt (s : State) (b : Byte) : (s.setDt b).dt = b := rfl

@[simp] theorem State.setDt_st (s : State) (b : Byte) : (s.setDt b).st = s.st := rfl

@[simp] theorem State.setDt_mem (s : State) (b : Byte) : (s.setDt b).mem = s.mem := rfl

@[simp] theorem State.setDt_disp (s : State) (b : Byte) : (s.setDt b).disp = s.disp := rfl

@[simp] theorem State.setDt_keys (s : State) (b : Byte) : (s.setDt b).keys = s.keys := rfl

@[simp] theorem State.setDt_mode (s : State) (b : Byte) : (s.setDt b).mode = s.mode := rfl

@[simp] theorem State.setDt_keyEvent (s : State) (b : Byte) : (s.setDt b).keyEvent = s.keyEvent := rfl

@[simp] theorem State.setDt_err (s : State) (b : Byte) : (s.setDt b).err = s.err := rfl

@[simp] theorem State.setDt_params (s : State) (b : Byte) : (s.setDt b).params = s.params := rfl

@[simp] theorem State.setDt_draws (s : State) (b : Byte) : (s.setDt b).draws = s.draws := rfl

@[simp] theorem State.setDt_getV (s : State) (b : Byte) (k : RegIdx) : (s.setDt b).getV k = s.getV k := rfl

@[simp] theorem State.setDt_byteAt (s : State) (b : Byte) (m : Nat) : (s.setDt b).byteAt m = s.byteAt m := rfl

/-! `setSt` -/

@[simp] theorem State.setSt_v (s : State) (b : Byte) : (s.setSt b).v = s.v := rfl

@[simp] theorem State.setSt_iReg (s : State) (b : Byte) : (s.setSt b).iReg = s.iReg := rfl

@[simp] theorem State.setSt_pc (s : State) (b : Byte) : (s.setSt b).pc = s.pc := rfl

@[simp] theorem State.setSt_sp (s : State) (b : Byte) : (s.setSt b).sp = s.sp := rfl

@[simp] theorem State.setSt_stack (s : State) (b : Byte) : (s.setSt b).stack = s.stack := rfl

@[simp] theorem State.setSt_dt (s : State) (b : Byte) : (s.setSt b).dt = s.dt := rfl

@[simp] theorem State.setSt_st (s : State) (b : Byte) : (s.setSt b).st = b := rfl

@[simp] theorem State.setSt_mem (s : State) (b : Byte) : (s.setSt b).mem = s.mem := rfl

@[simp] theorem State.setSt_disp (s : State) (b : Byte) : (s.setSt b).disp = s.disp := rfl

@[simp] theorem State.setSt_keys (s : State) (b : Byte) : (s.setSt b).keys = s.keys := rfl

@[simp] theorem State.setSt_mode (s : State) (b : Byte) : (s.setSt b).mode = s.mode := rfl

@[simp] theorem State.setSt_keyEvent (s : State) (b : Byte) : (s.setSt b).keyEvent = s.keyEvent := rfl

@[simp] theorem State.setSt_err (s : State) (b : Byte) : (s.setSt b).err = s.err := rfl

@[simp] theorem State.setSt_params (s : State) (b : Byte) : (s.setSt b).params = s.params := rfl

@[simp] theorem State.setSt_draws (s : State) (b : Byte) : (s.setSt b).draws = s.draws := rfl

@[simp] theorem State.setSt_getV (s : State) (b : Byte) (k : RegIdx) : (s.setSt b).getV k = s.getV k := rfl

@[simp] theorem State.setSt_byteAt (s : State) (b : Byte) (m : Nat) : (s.setSt b).byteAt m = s.byteAt m := rfl

/-! `setDisp` -/

@[simp] theorem State.setDisp_v (s : State) (d : Display) : (s.setDisp d).v = s.v := rfl

@[simp] theorem State.setDisp_iReg (s : State) (d : Display) : (s.setDisp d).iReg = s.iReg := rfl

@[simp] theorem State.setDisp_pc (s : State) (d : Display) : (s.setDisp d).pc = s.pc := rfl

@[simp] theorem State.setDisp_sp (s : State) (d : Display) : (s.setDisp d).sp = s.sp := rfl

@[simp] theorem State.setDisp_stack (s : State) (d : Display) : (s.setDisp d).stack = s.stack := rfl

@[simp] theorem State.setDisp_dt (s : State) (d : Display) : (s.setDisp d).dt = s.dt := rfl

@[simp] theorem State.setDisp_st (s : State) (d : Display) : (s.setDisp d).st = s.st := rfl

@[simp] theorem State.setDisp_mem (s : State) (d : Display) : (s.setDisp d).mem = s.mem := rfl

@[simp] theorem State.setDisp_disp (s : State) (d : Display) : (s.setDisp d).disp = d := rfl

@[simp] theorem State.setDisp_keys (s : State) (d : Display) : (s.setDisp d).keys = s.keys := rfl

@[simp] theorem State.setDisp_mode (s : State) (d : Display) : (s.setDisp d).mode = s.mode := rfl

@[simp] theorem State.setDisp_keyEvent (s : State) (d : Display) : (s.setDisp d).keyEvent = s.keyEvent := rfl

@[simp] theorem State.setDisp_err (s : State) (d : Display) : (s.setDisp d).err = s.err := rfl

@[simp] theorem State.setDisp_params (s : State) (d : Display) : (s.setDisp d).params = s.params := rfl

@[simp] theorem State.setDisp_draws (s : State) (d : Display) : (s.setDisp d).draws = s.draws := rfl

@[simp] theorem State.setDisp_getV (s : State) (d : Display) (k : RegIdx) : (s.setDisp d).getV k = s.getV k := rfl

@[simp] theorem State.setDisp_byteAt (s : State) (d : Display) (m : Nat) : (s.setDisp d).byteAt m = s.byteAt m := rfl

/-! `advance` -/

@[simp] theorem State.advance_v (s : State) : (s.advance).v = s.v := rfl

@[simp] theorem State.advance_iReg (s : State) : (s.advance).iReg = s.iReg := rfl

@[simp] theorem State.advance_pc (s : State) : (s.advance).pc = s.pc + 2 := rfl

@[simp] theorem State.advance_sp (s : State) : (s.advance).sp = s.sp := rfl

@[simp] theorem State.advance_stack (s : State) : (s.advance).stack = s.stack := rfl

@[simp] theorem State.advance_dt (s : State) : (s.advance).dt = s.dt := rfl

@[simp] theorem State.advance_st (s : State) : (s.advance).st = s.st := rfl

@[simp] theorem State.advance_mem (s : State) : (s.advance).mem = s.mem := rfl

@[simp] theorem State.advance_disp (s : State) : (s.advance).disp = s.disp := rfl

@[simp] theorem State.advance_keys (s : State) : (s.advance).keys = s.keys := rfl

@[simp] theorem State.advance_mode (s : State) : (s.advance).mode = s.mode := rfl

@[simp] theorem State.advance_keyEvent (s : State) : (s.advance).keyEvent = s.keyEvent := rfl

@[simp] theorem State.advance_err (s : State) : (s.advance).err = s.err := rfl

@[simp] theorem State.advance_params (s : State) : (s.advance).params = s.params := rfl

@[simp] theorem State.advance_draws (s : State) : (s.advance).draws = s.draws := rfl

@[simp] theorem State.advance_getV (s : State) (k : RegIdx) : (s.advance).getV k = s.getV k := rfl

@[simp] theorem State.advance_byteAt (s : State) (m : Nat) : (s.advance).byteAt m = s.byteAt m := rfl

/-! `nextDraw` -/

@[simp] theorem State.nextDraw_v (s : State) : (s.nextDraw).v = s.v := rfl

@[simp] theorem State.nextDraw_iReg (s : State) : (s.nextDraw).iReg = s.iReg := rfl

@[simp] theorem State.nextDraw_pc (s : State) : (s.nextDraw).pc = s.pc := rfl

@[simp] theorem State.nextDraw_sp (s : State) : (s.nextDraw).sp = s.sp := rfl

@[simp] theorem State.nextDraw_stack (s : State) : (s.nextDraw).stack = s.stack := rfl

@[simp] theorem State.nextDraw_dt (s : State) : (s.nextDraw).dt = s.dt := rfl

@[simp] theorem State.nextDraw_st (s : State) : (s.nextDraw).st = s.st := rfl

@[simp] theorem State.nextDraw_mem (s : State) : (s.nextDraw).mem = s.mem := rfl

@[simp] theorem State.nextDraw_disp (s : State) : (s.nextDraw).disp = s.disp := rfl

@[simp] theorem State.nextDraw_keys (s : State) : (s.nextDraw).keys = s.keys := rfl

@[simp] theorem State.nextDraw_mode (s : State) : (s.nextDraw).mode = s.mode := rfl

@[simp] theorem State.nextDraw_keyEvent (s : State) : (s.nextDraw).keyEvent = s.keyEvent := rfl

@[simp] theorem State.nextDraw_err (s : State) : (s.nextDraw).err = s.err := rfl

@[simp] theorem State.nextDraw_params (s : State) : (s.nextDraw).params = s.params := rfl

@[simp] theorem State.nextDraw_draws (s : State) : (s.nextDraw).draws = s.draws + 1 := rfl

@[simp] theorem State.nextDraw_getV (s : State) (k : RegIdx) : (s.nextDraw).getV k = s.getV k := rfl

@[simp] theorem State.nextDraw_byteAt (s : State) (m : Nat) : (s.nextDraw).byteAt m = s.byteAt m := rfl

/-! `suspend` -/

@[simp] theorem State.suspend_v (s : State) (x : RegIdx) : (s.suspend x).v = s.v := rfl

@[simp] theorem State.suspend_iReg (s : State) (x : RegIdx) : (s.suspend x).iReg = s.iReg := rfl

@[simp] theorem State.suspend_pc (s : State) (x : RegIdx) : (s.suspend x).pc = s.pc := rfl

@[simp] theorem State.suspend_sp (s : State) (x : RegIdx) : (s.suspend x).sp = s.sp := rfl

@[simp] theorem State.suspend_stack (s : State) (x : RegIdx) : (s.suspend x).stack = s.stack := rfl

@[simp] theorem State.suspend_dt (s : State) (x : RegIdx) : (s.suspend x).dt = s.dt := rfl

@[simp] theorem State.suspend_st (s : State) (x : RegIdx) : (s.suspend x).st = s.st := rfl

@[simp] theorem State.suspend_mem (s : State) (x : RegIdx) : (s.suspend x).mem = s.mem := rfl

@[simp] theorem State.suspend_disp (s : State) (x : RegIdx) : (s.suspend x).disp = s.disp := rfl

@[simp] theorem State.suspend_keys (s : State) (x : RegIdx) : (s.suspend x).keys = s.keys := rfl

@[simp] theorem State.suspend_mode (s : State) (x : RegIdx) : (s.suspend x).mode = .awaitingKey x := rfl

@[simp] theorem State.suspend_keyEvent (s : State) (x : RegIdx) : (s.suspend x).keyEvent = none := rfl

@[simp] theorem State.suspend_err (s : State) (x : RegIdx) : (s.suspend x).err = s.err := rfl

@[simp] theorem State.suspend_params (s : State) (x : RegIdx) : (s.suspend x).params = s.params := rfl

@[simp] theorem State.suspend_draws (s : State) (x : RegIdx) : (s.suspend x).draws = s.draws := rfl

@[simp] theorem State.suspend_getV (s : State) (x : RegIdx) (k : RegIdx) : (s.suspend x).getV k = s.getV k := rfl

@[simp] theorem State.suspend_byteAt (s : State) (x : RegIdx) (m : Nat) : (s.suspend x).byteAt m = s.byteAt m := rfl

/-! `resume` -/

@[simp] theorem State.resume_v (s : State) (x : RegIdx) (k : KeyIdx) : (s.resume x k).v = s.v.set x (BitVec.ofNat 8 k.val) := rfl

@[simp] theorem State.resume_iReg (s : State) (x : RegIdx) (k : KeyIdx) : (s.resume x k).iReg = s.iReg := rfl

@[simp] theorem State.resume_pc (s : State) (x : RegIdx) (k : KeyIdx) : (s.resume x k).pc = s.pc + 2 := rfl

@[simp] theorem State.resume_sp (s : State) (x : RegIdx) (k : KeyIdx) : (s.resume x k).sp = s.sp := rfl

@[simp] theorem State.resume_stack (s : State) (x : RegIdx) (k : KeyIdx) : (s.resume x k).stack = s.stack := rfl

@[simp] theorem State.resume_dt (s : State) (x : RegIdx) (k : KeyIdx) : (s.resume x k).dt = s.dt := rfl

@[simp] theorem State.resume_st (s : State) (x : RegIdx) (k : KeyIdx) : (s.resume x k).st = s.st := rfl

@[simp] theorem State.resume_mem (s : State) (x : RegIdx) (k : KeyIdx) : (s.resume x k).mem = s.mem := rfl

@[simp] theorem State.resume_disp (s : State) (x : RegIdx) (k : KeyIdx) : (s.resume x k).disp = s.disp := rfl

@[simp] theorem State.resume_keys (s : State) (x : RegIdx) (k : KeyIdx) : (s.resume x k).keys = s.keys := rfl

@[simp] theorem State.resume_mode (s : State) (x : RegIdx) (k : KeyIdx) : (s.resume x k).mode = .running := rfl

@[simp] theorem State.resume_keyEvent (s : State) (x : RegIdx) (k : KeyIdx) : (s.resume x k).keyEvent = none := rfl

@[simp] theorem State.resume_err (s : State) (x : RegIdx) (k : KeyIdx) : (s.resume x k).err = s.err := rfl

@[simp] theorem State.resume_params (s : State) (x : RegIdx) (k : KeyIdx) : (s.resume x k).params = s.params := rfl

@[simp] theorem State.resume_draws (s : State) (x : RegIdx) (k : KeyIdx) : (s.resume x k).draws = s.draws := rfl

@[simp] theorem State.resume_byteAt (s : State) (x : RegIdx) (k : KeyIdx) (m : Nat) : (s.resume x k).byteAt m = s.byteAt m := rfl

/-! `halt` -/

@[simp] theorem State.halt_v (s : State) (e : ErrorRecord) : (s.halt e).v = s.v := rfl

@[simp] theorem State.halt_iReg (s : State) (e : ErrorRecord) : (s.halt e).iReg = s.iReg := rfl

@[simp] theorem State.halt_pc (s : State) (e : ErrorRecord) : (s.halt e).pc = s.pc := rfl

@[simp] theorem State.halt_sp (s : State) (e : ErrorRecord) : (s.halt e).sp = s.sp := rfl

@[simp] theorem State.halt_stack (s : State) (e : ErrorRecord) : (s.halt e).stack = s.stack := rfl

@[simp] theorem State.halt_dt (s : State) (e : ErrorRecord) : (s.halt e).dt = s.dt := rfl

@[simp] theorem State.halt_st (s : State) (e : ErrorRecord) : (s.halt e).st = s.st := rfl

@[simp] theorem State.halt_mem (s : State) (e : ErrorRecord) : (s.halt e).mem = s.mem := rfl

@[simp] theorem State.halt_disp (s : State) (e : ErrorRecord) : (s.halt e).disp = s.disp := rfl

@[simp] theorem State.halt_keys (s : State) (e : ErrorRecord) : (s.halt e).keys = s.keys := rfl

@[simp] theorem State.halt_mode (s : State) (e : ErrorRecord) : (s.halt e).mode = .halted := rfl

@[simp] theorem State.halt_keyEvent (s : State) (e : ErrorRecord) : (s.halt e).keyEvent = s.keyEvent := rfl

@[simp] theorem State.halt_err (s : State) (e : ErrorRecord) : (s.halt e).err = some e := rfl

@[simp] theorem State.halt_params (s : State) (e : ErrorRecord) : (s.halt e).params = s.params := rfl

@[simp] theorem State.halt_draws (s : State) (e : ErrorRecord) : (s.halt e).draws = s.draws := rfl

@[simp] theorem State.halt_getV (s : State) (e : ErrorRecord) (k : RegIdx) : (s.halt e).getV k = s.getV k := rfl

@[simp] theorem State.halt_byteAt (s : State) (e : ErrorRecord) (m : Nat) : (s.halt e).byteAt m = s.byteAt m := rfl

/-! `setResultFlag` -/

@[simp] theorem State.setResultFlag_v (s : State) (x : RegIdx) (r f : Byte) : (s.setResultFlag x r f).v = (s.v.set x r).set regVF f := rfl

@[simp] theorem State.setResultFlag_iReg (s : State) (x : RegIdx) (r f : Byte) : (s.setResultFlag x r f).iReg = s.iReg := rfl

@[simp] theorem State.setResultFlag_pc (s : State) (x : RegIdx) (r f : Byte) : (s.setResultFlag x r f).pc = s.pc := rfl

@[simp] theorem State.setResultFlag_sp (s : State) (x : RegIdx) (r f : Byte) : (s.setResultFlag x r f).sp = s.sp := rfl

@[simp] theorem State.setResultFlag_stack (s : State) (x : RegIdx) (r f : Byte) : (s.setResultFlag x r f).stack = s.stack := rfl

@[simp] theorem State.setResultFlag_dt (s : State) (x : RegIdx) (r f : Byte) : (s.setResultFlag x r f).dt = s.dt := rfl

@[simp] theorem State.setResultFlag_st (s : State) (x : RegIdx) (r f : Byte) : (s.setResultFlag x r f).st = s.st := rfl

@[simp] theorem State.setResultFlag_mem (s : State) (x : RegIdx) (r f : Byte) : (s.setResultFlag x r f).mem = s.mem := rfl

@[simp] theorem State.setResultFlag_disp (s : State) (x : RegIdx) (r f : Byte) : (s.setResultFlag x r f).disp = s.disp := rfl

@[simp] theorem State.setResultFlag_keys (s : State) (x : RegIdx) (r f : Byte) : (s.setResultFlag x r f).keys = s.keys := rfl

@[simp] theorem State.setResultFlag_mode (s : State) (x : RegIdx) (r f : Byte) : (s.setResultFlag x r f).mode = s.mode := rfl

@[simp] theorem State.setResultFlag_keyEvent (s : State) (x : RegIdx) (r f : Byte) : (s.setResultFlag x r f).keyEvent = s.keyEvent := rfl

@[simp] theorem State.setResultFlag_err (s : State) (x : RegIdx) (r f : Byte) : (s.setResultFlag x r f).err = s.err := rfl

@[simp] theorem State.setResultFlag_params (s : State) (x : RegIdx) (r f : Byte) : (s.setResultFlag x r f).params = s.params := rfl

@[simp] theorem State.setResultFlag_draws (s : State) (x : RegIdx) (r f : Byte) : (s.setResultFlag x r f).draws = s.draws := rfl

@[simp] theorem State.setResultFlag_byteAt (s : State) (x : RegIdx) (r f : Byte) (m : Nat) : (s.setResultFlag x r f).byteAt m = s.byteAt m := rfl

/-! `skipIf` -/

@[simp] theorem State.skipIf_v (s : State) (c : Bool) : (s.skipIf c).v = s.v := by cases c <;> rfl

@[simp] theorem State.skipIf_iReg (s : State) (c : Bool) : (s.skipIf c).iReg = s.iReg := by cases c <;> rfl

@[simp] theorem State.skipIf_pc (s : State) (c : Bool) : (s.skipIf c).pc = if c then s.pc + 2 + 2 else s.pc + 2 := by cases c <;> rfl

@[simp] theorem State.skipIf_sp (s : State) (c : Bool) : (s.skipIf c).sp = s.sp := by cases c <;> rfl

@[simp] theorem State.skipIf_stack (s : State) (c : Bool) : (s.skipIf c).stack = s.stack := by cases c <;> rfl

@[simp] theorem State.skipIf_dt (s : State) (c : Bool) : (s.skipIf c).dt = s.dt := by cases c <;> rfl

@[simp] theorem State.skipIf_st (s : State) (c : Bool) : (s.skipIf c).st = s.st := by cases c <;> rfl

@[simp] theorem State.skipIf_mem (s : State) (c : Bool) : (s.skipIf c).mem = s.mem := by cases c <;> rfl

@[simp] theorem State.skipIf_disp (s : State) (c : Bool) : (s.skipIf c).disp = s.disp := by cases c <;> rfl

@[simp] theorem State.skipIf_keys (s : State) (c : Bool) : (s.skipIf c).keys = s.keys := by cases c <;> rfl

@[simp] theorem State.skipIf_mode (s : State) (c : Bool) : (s.skipIf c).mode = s.mode := by cases c <;> rfl

@[simp] theorem State.skipIf_keyEvent (s : State) (c : Bool) : (s.skipIf c).keyEvent = s.keyEvent := by cases c <;> rfl

@[simp] theorem State.skipIf_err (s : State) (c : Bool) : (s.skipIf c).err = s.err := by cases c <;> rfl

@[simp] theorem State.skipIf_params (s : State) (c : Bool) : (s.skipIf c).params = s.params := by cases c <;> rfl

@[simp] theorem State.skipIf_draws (s : State) (c : Bool) : (s.skipIf c).draws = s.draws := by cases c <;> rfl

@[simp] theorem State.skipIf_getV (s : State) (c : Bool) (k : RegIdx) : (s.skipIf c).getV k = s.getV k := by cases c <;> rfl

@[simp] theorem State.skipIf_byteAt (s : State) (c : Bool) (m : Nat) : (s.skipIf c).byteAt m = s.byteAt m := by cases c <;> rfl

/-! `setLogicResult` -/

@[simp] theorem State.setLogicResult_v (s : State) (x : RegIdx) (r : Byte) : (s.setLogicResult x r).v = if s.params.logicVfReset then (s.v.set x r).set regVF 0x00 else s.v.set x r := by
  unfold State.setLogicResult; split <;> rfl

@[simp] theorem State.setLogicResult_iReg (s : State) (x : RegIdx) (r : Byte) : (s.setLogicResult x r).iReg = s.iReg := by
  unfold State.setLogicResult; split <;> rfl

@[simp] theorem State.setLogicResult_pc (s : State) (x : RegIdx) (r : Byte) : (s.setLogicResult x r).pc = s.pc := by
  unfold State.setLogicResult; split <;> rfl

@[simp] theorem State.setLogicResult_sp (s : State) (x : RegIdx) (r : Byte) : (s.setLogicResult x r).sp = s.sp := by
  unfold State.setLogicResult; split <;> rfl

@[simp] theorem State.setLogicResult_stack (s : State) (x : RegIdx) (r : Byte) : (s.setLogicResult x r).stack = s.stack := by
  unfold State.setLogicResult; split <;> rfl

@[simp] theorem State.setLogicResult_dt (s : State) (x : RegIdx) (r : Byte) : (s.setLogicResult x r).dt = s.dt := by
  unfold State.setLogicResult; split <;> rfl

@[simp] theorem State.setLogicResult_st (s : State) (x : RegIdx) (r : Byte) : (s.setLogicResult x r).st = s.st := by
  unfold State.setLogicResult; split <;> rfl

@[simp] theorem State.setLogicResult_mem (s : State) (x : RegIdx) (r : Byte) : (s.setLogicResult x r).mem = s.mem := by
  unfold State.setLogicResult; split <;> rfl

@[simp] theorem State.setLogicResult_disp (s : State) (x : RegIdx) (r : Byte) : (s.setLogicResult x r).disp = s.disp := by
  unfold State.setLogicResult; split <;> rfl

@[simp] theorem State.setLogicResult_keys (s : State) (x : RegIdx) (r : Byte) : (s.setLogicResult x r).keys = s.keys := by
  unfold State.setLogicResult; split <;> rfl

@[simp] theorem State.setLogicResult_mode (s : State) (x : RegIdx) (r : Byte) : (s.setLogicResult x r).mode = s.mode := by
  unfold State.setLogicResult; split <;> rfl

@[simp] theorem State.setLogicResult_keyEvent (s : State) (x : RegIdx) (r : Byte) : (s.setLogicResult x r).keyEvent = s.keyEvent := by
  unfold State.setLogicResult; split <;> rfl

@[simp] theorem State.setLogicResult_err (s : State) (x : RegIdx) (r : Byte) : (s.setLogicResult x r).err = s.err := by
  unfold State.setLogicResult; split <;> rfl

@[simp] theorem State.setLogicResult_params (s : State) (x : RegIdx) (r : Byte) : (s.setLogicResult x r).params = s.params := by
  unfold State.setLogicResult; split <;> rfl

@[simp] theorem State.setLogicResult_draws (s : State) (x : RegIdx) (r : Byte) : (s.setLogicResult x r).draws = s.draws := by
  unfold State.setLogicResult; split <;> rfl

@[simp] theorem State.setLogicResult_byteAt (s : State) (x : RegIdx) (r : Byte) (m : Nat) : (s.setLogicResult x r).byteAt m = s.byteAt m := by
  unfold State.setLogicResult; split <;> rfl

/-! Registers -/

/-- Reading a register after writing one. -/
@[simp] theorem State.setV_getV (s : State) (x k : RegIdx) (b : Byte) :
    (s.setV x b).getV k = if k = x then b else s.getV k := by
  simp only [State.setV, State.getV, Fin.getElem_fin, Vector.getElem_set]
  by_cases h : k = x
  · simp [h]
  · rw [if_neg h, if_neg (fun hv => h (Fin.ext hv.symm))]

/-- Reading a register after a result and its flag: VF holds the flag even when it was the destination. -/
@[simp] theorem State.setResultFlag_getV (s : State) (x k : RegIdx) (r f : Byte) :
    (s.setResultFlag x r f).getV k = if k = regVF then f else if k = x then r else s.getV k := by
  simp [State.setResultFlag]

/-- Reading a register after a logic result. -/
theorem State.setLogicResult_getV (s : State) (x k : RegIdx) (r : Byte) :
    (s.setLogicResult x r).getV k =
      if s.params.logicVfReset = true ∧ k = regVF then 0x00 else if k = x then r else s.getV k := by
  unfold State.setLogicResult
  by_cases h : s.params.logicVfReset = true <;> simp [h]

/-- Reading a register after FX0A's resume. -/
@[simp] theorem State.resume_getV (s : State) (x n : RegIdx) (k : KeyIdx) :
    (s.resume x k).getV n = if n = x then BitVec.ofNat 8 k.val else s.getV n :=
  State.setV_getV s.advance x n _

/-- Writing consecutive registers from number k on writes those and no other. -/
theorem loadRegsFrom_get (bs : List Byte) (v : Vector Byte 16) (k n : Nat) (hn : n < 16) :
    (loadRegsFrom v k bs)[n] = if k ≤ n then bs.getD (n - k) v[n] else v[n] := by
  induction bs generalizing v k with
  | nil => simp [loadRegsFrom]
  | cons b bs ih =>
    simp only [loadRegsFrom, ih, Vector.getElem_setIfInBounds]
    by_cases hk : k = n
    · subst hk; simp
    · by_cases hlt : k < n
      · obtain ⟨d, rfl⟩ := Nat.exists_eq_add_of_lt hlt
        have e1 : k + d + 1 - (k + 1) = d := by omega
        have e2 : k + d + 1 - k = d + 1 := by omega
        simp [e1, e2, hk, Nat.le_of_lt hlt, show k + 1 ≤ k + d + 1 by omega]
      · simp [hk, show ¬ (k + 1 ≤ n) by omega, show ¬ (k ≤ n) by omega]

/-- Reading a register after FX65's load. -/
theorem State.loadRegs_getV (s : State) (bs : List Byte) (n : RegIdx) :
    (s.loadRegs bs).getV n = bs.getD n.val (s.getV n) := by
  simpa [State.loadRegs, State.getV] using loadRegsFrom_get bs s.v 0 n.val n.isLt

/-- A state is known by its registers when every other part is the same. -/
theorem State.ext_v {s t : State} (h : ∀ k, t.getV k = s.getV k) : t.v = s.v := by
  apply Vector.ext
  intro i hi
  exact h ⟨i, hi⟩

/-! addr of an error record -/

@[simp] theorem ErrorRecord.addr_nothing (k : ErrorKind) (p o : Option Word) :
    (⟨k, p, o, .nothing⟩ : ErrorRecord).addr = none := rfl

@[simp] theorem ErrorRecord.addr_addr (k : ErrorKind) (p o : Option Word) (a : Nat) :
    (⟨k, p, o, .addr a⟩ : ErrorRecord).addr = some a := rfl

@[simp] theorem ErrorRecord.addr_romLength (k : ErrorKind) (p o : Option Word) (n : Nat) :
    (⟨k, p, o, .romLength n⟩ : ErrorRecord).addr = none := rfl

end Sys2Proof.Machine
end

