-- ==== Sys2Proof/Laws/Memory.lean ====
section
/-! SUPPORT. Memory: every operation keeps the canonical form; a read after a write; and what the byte blocks do. -/

namespace Sys2Proof

/-- A lower start admits the same cells. -/
theorem Memory.wfFrom_mono {d : Nat → Byte} {m : Memory} {lo hi : Nat} (h : lo ≤ hi) (hm : Memory.wfFrom d hi m = true) :
    Memory.wfFrom d lo m = true := by
  cases m with
  | nil => rfl
  | cons c m =>
    simp only [Memory.wfFrom, Bool.and_eq_true, decide_eq_true_eq] at hm ⊢
    exact ⟨⟨⟨by omega, hm.1.1.2⟩, hm.1.2⟩, hm.2⟩

/-- The canonical form of a non-empty list, clause by clause. -/
theorem Memory.wfFrom_cons {d : Nat → Byte} {lo a : Nat} {v : Byte} {m : Memory} :
    Memory.wfFrom d lo ((a, v) :: m) = true ↔ lo ≤ a ∧ a < 4096 ∧ v ≠ d a ∧ Memory.wfFrom d (a + 1) m = true := by
  simp only [Memory.wfFrom, Bool.and_eq_true, decide_eq_true_eq, and_assoc]

namespace Machine

/-- An address below every listed one reads as unlisted. -/
theorem memoryRead_below {d : Nat → Byte} {m : Memory} {lo a : Nat} (hm : Memory.wfFrom d lo m = true) (ha : a < lo) :
    memoryRead d m a = d a := by
  induction m generalizing lo with
  | nil => rfl
  | cons c m ih =>
    obtain ⟨b, w⟩ := c
    obtain ⟨h1, -, -, h4⟩ := Memory.wfFrom_cons.1 hm
    rw [memoryRead, if_neg (by omega)]
    exact ih h4 (by omega)

/-- A write keeps the canonical form. -/
theorem memoryWrite_wfFrom {d : Nat → Byte} {m : Memory} {lo a : Nat} (v : Byte) (hm : Memory.wfFrom d lo m = true)
    (hlo : lo ≤ a) (ha : a < 4096) : Memory.wfFrom d lo (memoryWrite d m a v) = true := by
  induction m generalizing lo with
  | nil =>
    simp only [memoryWrite]
    split
    · rfl
    · next h => exact Memory.wfFrom_cons.2 ⟨hlo, ha, h, rfl⟩
  | cons c m ih =>
    obtain ⟨b, w⟩ := c
    obtain ⟨h1, h2, h3, h4⟩ := Memory.wfFrom_cons.1 hm
    simp only [memoryWrite]
    split
    · next hab =>
      split
      · exact hm
      · next h => exact Memory.wfFrom_cons.2 ⟨hlo, ha, h, Memory.wfFrom_cons.2 ⟨by omega, h2, h3, h4⟩⟩
    · split
      · next hba hab =>
        subst hab
        split
        · exact Memory.wfFrom_mono (by omega) h4
        · next h => exact Memory.wfFrom_cons.2 ⟨hlo, ha, h, h4⟩
      · exact Memory.wfFrom_cons.2 ⟨h1, h2, h3, ih h4 (by omega)⟩

/-- A write keeps the canonical form of the whole memory. -/
theorem memoryWrite_wf {d : Nat → Byte} {m : Memory} {a : Nat} (v : Byte) (hm : Memory.wf d m = true) (ha : a < 4096) :
    Memory.wf d (memoryWrite d m a v) = true :=
  memoryWrite_wfFrom v hm (Nat.zero_le a) ha

/-- Reading after a write gives the byte written at its address and the old byte at every other. -/
theorem memoryRead_write {d : Nat → Byte} {m : Memory} {lo : Nat} (a : Nat) (v : Byte) (c : Nat)
    (hm : Memory.wfFrom d lo m = true) :
    memoryRead d (memoryWrite d m a v) c = if c = a then v else memoryRead d m c := by
  induction m generalizing lo with
  | nil =>
    simp only [memoryWrite]
    by_cases hca : c = a <;> by_cases hv : v = d a <;> simp [hca, hv, memoryRead]
  | cons p m ih =>
    obtain ⟨b, w⟩ := p
    obtain ⟨-, -, -, h4⟩ := Memory.wfFrom_cons.1 hm
    simp only [memoryWrite]
    by_cases hab : a < b
    · have hbelow : memoryRead d ((b, w) :: m) a = d a := by
        rw [memoryRead, if_neg (by omega)]; exact memoryRead_below h4 (by omega)
      by_cases hca : c = a
      · by_cases hv : v = d a
        · simp [hab, hv, hca, hbelow]
        · simp [hab, hv, hca, memoryRead]
      · by_cases hv : v = d a <;> simp [hab, hv, hca, memoryRead]
    · by_cases hba : a = b
      · subst hba
        by_cases hca : c = a
        · by_cases hv : v = d a
          · simp [hv, hca, memoryRead_below h4 (Nat.lt_succ_self a)]
          · simp [hv, hca, memoryRead]
        · by_cases hv : v = d a <;> simp [hv, hca, memoryRead]
      · by_cases hcb : c = b
        · simp [hab, hba, memoryRead, hcb, show ¬ b = a by omega]
        · simp [hab, hba, memoryRead, hcb, ih h4]

/-- Storing a byte: what each address reads as after it. -/
theorem State.setByte_byteAt {s : State} (hm : Memory.wf (initByte s.params) s.mem = true) (a : Nat) (b : Byte) (c : Nat) :
    (s.setByte a b).byteAt c = if c = a then b else s.byteAt c :=
  memoryRead_write a b c hm

/-- Storing a byte inside the address space keeps the canonical form. -/
theorem State.setByte_wf {s : State} (hm : Memory.wf (initByte s.params) s.mem = true) {a : Nat} (ha : a < 4096) (b : Byte) :
    Memory.wf (initByte (s.setByte a b).params) (s.setByte a b).mem = true :=
  memoryWrite_wf b hm ha

/-- `MemRead` inside the address space. -/
theorem memRead_ok (s : State) {a : Nat} (h : a ≤ 0xFFF) : memRead s a = .ok (s.byteAt a) := by
  rw [memRead, if_neg (by omega)]

/-- `MemRead` outside the address space. -/
theorem memRead_error (s : State) {a : Nat} (h : 0xFFF < a) : memRead s a = .error a := by
  rw [memRead, if_pos h]

/-- Everything a block read can do when it reads bytes inside the address space. -/
theorem readBytes_ok (s : State) {base n : Nat} (h : n = 0 ∨ base + n ≤ 4096) :
    readBytes s base n = .ok ((List.range' base n).map s.byteAt) := by
  induction n generalizing base with
  | zero => rfl
  | succ n ih =>
    have hb : base + (n + 1) ≤ 4096 := by omega
    simp only [readBytes, memRead_ok s (show base ≤ 0xFFF by omega), ih (base := base + 1) (by omega), List.range'_succ, List.map_cons]

/-- Everything a block read can do when it leaves the address space: it names the lowest address out of range. -/
theorem readBytes_error (s : State) {base n : Nat} (hn : 0 < n) (h : 4096 < base + n) :
    readBytes s base n = .error (max base 0x1000) := by
  induction n generalizing base with
  | zero => omega
  | succ n ih =>
    by_cases hb : base ≤ 0xFFF
    · have hn' : 0 < n := by omega
      rw [readBytes, memRead_ok s hb]
      simp only [ih (base := base + 1) hn' (by omega)]
      congr 1
      omega
    · rw [readBytes, memRead_error s (by omega)]
      simp only
      congr 1
      omega

/-- Everything a block write does inside the address space: it touches memory alone, keeps the canonical form, and each
address reads as the byte written there, or as before. -/
theorem writeBytes_ok {s : State} {base : Nat} {bs : List Byte} (hm : Memory.wf (initByte s.params) s.mem = true)
    (h : bs = [] ∨ base + bs.length ≤ 4096) :
    ∃ m, writeBytes s base bs = .ok { s with mem := m } ∧ Memory.wf (initByte s.params) m = true ∧
      ∀ c, memoryRead (initByte s.params) m c =
        if base ≤ c ∧ c < base + bs.length then bs.getD (c - base) 0x00 else s.byteAt c := by
  induction bs generalizing s base with
  | nil => exact ⟨s.mem, rfl, hm, fun c => by simp [State.byteAt]⟩
  | cons b bs ih =>
    have hlen : base + (bs.length + 1) ≤ 4096 := by
      rcases h with h | h
      · cases h
      · simpa using h
    obtain ⟨m, h1, h2, h3⟩ := ih (s := s.setByte base b) (base := base + 1) (State.setByte_wf hm (by omega) b)
      (Or.inr (by omega))
    refine ⟨m, ?_, h2, fun c => ?_⟩
    · have hw : memWrite s base b = .ok (s.setByte base b) := by rw [memWrite, if_neg (by omega)]
      rw [writeBytes, hw]
      exact h1
    · rw [State.setByte_params] at h3
      rw [h3, State.setByte_byteAt hm]
      by_cases hc : c = base
      · subst hc; simp
      · by_cases hgt : base < c
        · obtain ⟨d, rfl⟩ := Nat.exists_eq_add_of_lt hgt
          have e1 : base + d + 1 - (base + 1) = d := by omega
          have e2 : base + d + 1 - base = d + 1 := by omega
          simp only [e1, e2, List.length_cons, List.getD_cons_succ]
          by_cases hd : d < bs.length
          · rw [if_pos (by omega), if_pos (by omega)]
          · rw [if_neg (by omega), if_neg (by omega), if_neg (by omega)]
        · rw [if_neg (by omega), if_neg hc, if_neg (by omega)]

/-- Everything a block write can do when it leaves the address space: it names the lowest address out of range. -/
theorem writeBytes_error (s : State) {base : Nat} {bs : List Byte} (hn : bs ≠ []) (h : 4096 < base + bs.length) :
    writeBytes s base bs = .error (max base 0x1000) := by
  induction bs generalizing s base with
  | nil => exact absurd rfl hn
  | cons b bs ih =>
    by_cases hb : base ≤ 0xFFF
    · have hw : memWrite s base b = .ok (s.setByte base b) := by rw [memWrite, if_neg (by omega)]
      rw [List.length_cons] at h
      rw [writeBytes, hw]
      simp only [ih (s.setByte base b) (base := base + 1) (by rintro rfl; simp at h; omega) (by omega)]
      congr 1
      omega
    · rw [writeBytes, memWrite, if_pos (by omega)]
      simp only
      congr 1
      omega

end Machine
end Sys2Proof
end

