-- ==== Sys2Proof/Laws/Ops.lean ====
section
/-! SUPPORT. One lemma for each shared operation over registers, the stack, the latch and the step cycle, saying all it
can do. -/

namespace Sys2Proof.Machine

/-! ### Fetch -/

/-- A fetch whose two bytes are inside memory gives the big-endian word. -/
theorem fetch_ok (s : State) (h : s.pc.toNat + 1 ≤ 0xFFF) :
    fetch s = .ok (wordOfBytes (s.byteAt s.pc.toNat) (s.byteAt (s.pc.toNat + 1))) := by
  rw [fetch, memRead_ok s (show s.pc.toNat ≤ 0xFFF by omega), memRead_ok s h]

/-- A fetch that would leave memory names the lowest address out of range. -/
theorem fetch_error (s : State) (h : 0xFFF < s.pc.toNat + 1) : fetch s = .error (max s.pc.toNat 0x1000) := by
  by_cases hp : s.pc.toNat ≤ 0xFFF
  · rw [fetch, memRead_ok s hp, memRead_error s h]
    simp only
    congr 1
    omega
  · rw [fetch, memRead_error s (by omega)]
    simp only
    congr 1
    omega

/-- A word is the word of its two bytes. -/
theorem wordOfBytes_bytes (op : Word) : wordOfBytes (Word.hiByte op) (Word.loByte op) = op := by
  apply BitVec.eq_of_getLsbD_eq
  intro i hi
  simp only [wordOfBytes, Word.hiByte, Word.loByte, BitVec.getLsbD_append, BitVec.getLsbD_extractLsb']
  by_cases h : i < 8
  · simp [h]
  · simp [h, show i - 8 < 8 by omega, show 8 + (i - 8) = i by omega]

/-- A placed word is the one the next fetch reads. -/
theorem fetch_placeWord (op : Word) (s : State) (hm : Memory.wf (initByte s.params) s.mem = true) :
    fetch (placeWord op s) = .ok op := by
  have hpc : (placeWord op s).pc.toNat + 1 ≤ 0xFFF := by
    simp only [placeWord, State.setByte_pc]
    split
    · decide
    · omega
  rw [fetch_ok _ hpc]
  simp only [placeWord, State.setByte_pc] at hpc ⊢
  generalize hp : (if s.pc.toNat + 1 > 0xFFF then (0x0200 : Word) else s.pc) = p at hpc ⊢
  have h1 : Memory.wf (initByte s.params) (memoryWrite (initByte s.params) s.mem p.toNat (Word.hiByte op)) = true :=
    memoryWrite_wf _ hm (by omega)
  rw [State.setByte_byteAt (by exact h1), State.setByte_byteAt (by exact hm), State.setByte_byteAt (by exact h1)]
  simp [wordOfBytes_bytes]

/-! ### The call stack -/

/-- A push onto a stack that has an entry SP. -/
theorem State.push_some (s : State) (w : Word) (h : s.sp.toNat < 16) :
    s.push w = some { s with stack := s.stack.set s.sp.toNat w, sp := s.sp + 1 } := by
  rw [State.push, dif_pos h]

/-- A push when there is no entry SP. -/
theorem State.push_none (s : State) (w : Word) (h : 16 ≤ s.sp.toNat) : s.push w = none := by
  rw [State.push, dif_neg (by omega)]

/-- A pop of a stack that has an entry SP − 1. -/
theorem State.popPc_some (s : State) (h : (s.sp - 1).toNat < 16) :
    s.popPc = some { s with sp := s.sp - 1, pc := s.stack[(s.sp - 1).toNat] } := by
  rw [State.popPc, dif_pos h]

/-- A pop when there is no entry SP − 1. -/
theorem State.popPc_none (s : State) (h : 16 ≤ (s.sp - 1).toNat) : s.popPc = none := by
  rw [State.popPc, dif_neg (by omega)]

/-! ### The input latch -/

/-- The pressed keys are the keys that are pressed. -/
theorem State.mem_pressedKeys (s : State) (k : KeyIdx) : k ∈ s.pressedKeys ↔ s.isPressed k = true := by
  have hall : k ∈ allKeys := by revert k; decide
  simp [State.pressedKeys, hall]

/-- The pressed keys come the lowest first. -/
theorem State.pressedKeys_sorted (s : State) : s.pressedKeys.Pairwise (· < ·) :=
  List.Pairwise.filter _ (by decide)

/-- No key is chosen iff none is pressed. -/
theorem State.anyPressed_eq_none (s : State) : s.anyPressed = none ↔ ∀ k, s.isPressed k = false := by
  constructor
  · intro h k
    by_contra hk
    have hmem := (s.mem_pressedKeys k).2 (by simpa using hk)
    unfold State.anyPressed at h
    split at h
    · next he => rw [he] at hmem; simp at hmem
    · split at h <;> cases h
  · intro h
    have he : s.pressedKeys = [] := by
      rw [List.eq_nil_iff_forall_not_mem]
      intro k hk
      have := h k
      rw [(s.mem_pressedKeys k).1 hk] at this
      cases this
    simp [State.anyPressed, he]

/-- Everything `any_pressed()` can answer: a pressed key, the lowest one without a draw when KEY_PICK = LOWEST, and with
one draw taken when KEY_PICK = ANY. -/
theorem State.anyPressed_cases {s t : State} {k : KeyIdx} (h : s.anyPressed = some (k, t)) :
    s.isPressed k = true ∧
      ((s.params.keyPick = .lowest ∧ t = s ∧ ∀ j, s.isPressed j = true → k ≤ j) ∨
        (s.params.keyPick = .any ∧ t = s.nextDraw)) := by
  unfold State.anyPressed at h
  split at h
  · cases h
  · next k0 ks he =>
    split at h
    · next hp =>
      simp only [Option.some.injEq, Prod.mk.injEq] at h
      obtain ⟨rfl, rfl⟩ := h
      refine ⟨(s.mem_pressedKeys k0).1 (by rw [he]; exact List.mem_cons_self), Or.inl ⟨hp, rfl, fun j hj => ?_⟩⟩
      have hmem := (s.mem_pressedKeys j).2 hj
      have hs := s.pressedKeys_sorted
      rw [he] at hmem hs
      rcases List.mem_cons.1 hmem with rfl | hj'
      · exact le_refl _
      · exact le_of_lt ((List.pairwise_cons.1 hs).1 j hj')
    · next hp =>
      simp only [Option.some.injEq, Prod.mk.injEq] at h
      obtain ⟨rfl, rfl⟩ := h
      refine ⟨(s.mem_pressedKeys _).1 ?_, Or.inr ⟨hp, rfl⟩⟩
      rw [he]
      have hlt : Config.freePick s.draws % (ks.length + 1) < (k0 :: ks).length := Nat.mod_lt _ (Nat.succ_pos _)
      rw [List.getD_eq_getElem _ _ hlt]
      exact List.getElem_mem hlt

/-- The latch after one key is written. -/
theorem writeKey_get (keys : BitVec 16) (k j : KeyIdx) (pressed : Bool) :
    (writeKey keys k pressed).getLsbD j.val = if j = k then pressed else keys.getLsbD j.val := by
  have hj := j.isLt
  unfold writeKey
  by_cases h : j = k
  · subst h
    cases pressed <;> simp
  · have hv : ¬ j.val = k.val := fun e => h (Fin.ext e)
    cases pressed <;> simp [h] <;> omega

/-! ### The step cycle -/

/-- Taking a fatal error halts the core with the record of the error. -/
theorem raise_eq (kind : ErrorKind) (opcode : Option Word) (info : ErrorInfo) (s : State) :
    raise kind opcode info s = .next (s.halt ⟨kind, some s.pc, opcode, info⟩) := rfl

/-- A step of a halted core. -/
theorem step_halted {s : State} (h : s.mode = .halted) : step s = .next s := by
  simp only [step, cycle, h]

/-- A step of a waiting core. -/
theorem step_awaiting {s : State} {x : RegIdx} (h : s.mode = .awaitingKey x) : step s = awaitKey x s := by
  simp only [step, cycle, h]

/-- A step of a running core. -/
theorem step_running {s : State} (h : s.mode = .running) : step s = runInstruction s := by
  simp only [step, cycle, h]

/-- Everything a step can be: a halted core's, a waiting core's, a fetch out of range, an illegal word, or the decoded
instruction's meaning. -/
theorem step_cases (s : State) :
    (s.mode = .halted ∧ step s = .next s) ∨
    (∃ x, s.mode = .awaitingKey x ∧ step s = awaitKey x s) ∨
    (s.mode = .running ∧ ∃ a, fetch s = .error a ∧ step s = raise .memoryOutOfBounds none (.addr a) s) ∨
    (s.mode = .running ∧ ∃ op e, fetch s = .ok op ∧ decodeWord op = .error e ∧
      step s = raise .unknownOpcode (some op) .nothing s) ∨
    (s.mode = .running ∧ ∃ op i, fetch s = .ok op ∧ decodeWord op = .ok i ∧ step s = exec i s) := by
  rcases hm : s.mode with _ | x | _
  · have hs := step_running hm
    refine Or.inr (Or.inr ?_)
    rcases hf : fetch s with a | op
    · exact Or.inl ⟨rfl, a, rfl, by rw [hs, runInstruction, hf]⟩
    · rcases hd : decodeWord op with e | i
      · exact Or.inr (Or.inl ⟨rfl, op, e, rfl, hd, by rw [hs, runInstruction, hf]; simp only [runWord, hd]⟩)
      · exact Or.inr (Or.inr ⟨rfl, op, i, rfl, hd, by rw [hs, runInstruction, hf]; simp only [runWord, hd]⟩)
  · exact Or.inr (Or.inl ⟨x, rfl, step_awaiting hm⟩)
  · exact Or.inl ⟨rfl, step_halted hm⟩

/-- Everything a step of a waiting core can do: resume with a key, or nothing. -/
theorem awaitKey_cases (x : RegIdx) (s : State) :
    (s.params.keywaitTrigger = .level ∧ ∃ k t, s.anyPressed = some (k, t) ∧ awaitKey x s = .next (t.resume x k)) ∨
    (s.params.keywaitTrigger = .level ∧ s.anyPressed = none ∧ awaitKey x s = .next s) ∨
    (s.params.keywaitTrigger = .pressEdge ∧ ∃ k, s.keyEvent = some k ∧ awaitKey x s = .next (s.resume x k)) ∨
    (s.params.keywaitTrigger = .pressEdge ∧ s.keyEvent = none ∧ awaitKey x s = .next s) := by
  rcases ht : s.params.keywaitTrigger with _ | _
  · rcases hp : s.anyPressed with _ | ⟨k, t⟩
    · exact Or.inr (Or.inl ⟨rfl, rfl, by simp only [awaitKey, ht, hp]⟩)
    · exact Or.inl ⟨rfl, k, t, rfl, by simp only [awaitKey, ht, hp]⟩
  · rcases he : s.keyEvent with _ | k
    · exact Or.inr (Or.inr (Or.inr ⟨rfl, rfl, by simp only [awaitKey, ht, he]⟩))
    · exact Or.inr (Or.inr (Or.inl ⟨rfl, k, rfl, by simp only [awaitKey, ht, he]⟩))

/-- Copying a ROM touches memory alone, and keeps its canonical form when the ROM fits. -/
theorem copyRom_spec {s : State} {a : Nat} {bs : List Byte} (hm : Memory.wf (initByte s.params) s.mem = true)
    (h : a + bs.length ≤ 4096) :
    ∃ m, copyRom s a bs = { s with mem := m } ∧ Memory.wf (initByte s.params) m = true ∧
      ∀ c, memoryRead (initByte s.params) m c =
        if a ≤ c ∧ c < a + bs.length then bs.getD (c - a) 0x00 else s.byteAt c := by
  have hw : ∀ (bs : List Byte) (s : State) (a : Nat), a + bs.length ≤ 4096 →
      writeBytes s a bs = .ok (copyRom s a bs) := by
    intro bs
    induction bs with
    | nil => intro s a _; rfl
    | cons b bs ih =>
      intro s a hl
      rw [List.length_cons] at hl
      rw [writeBytes, memWrite, if_neg (by omega)]
      exact ih _ _ (by omega)
  obtain ⟨m, h1, h2, h3⟩ := writeBytes_ok hm (Or.inr h)
  rw [hw bs s a h] at h1
  exact ⟨m, Except.ok.inj h1, h2, h3⟩

end Sys2Proof.Machine
end

