-- ==== Sys2Proof/Laws/Drawing.lean ====
section
/-! SUPPORT. The pixel writer: what a flip does, that a sprite addresses no pixel twice, and what a whole draw leaves. -/

namespace Sys2Proof.Machine

/-- Flipping one pixel changes that pixel and no other. -/
theorem Display.flip_pixel (d : Display) (r r' : RowIdx) (c c' : ColIdx) :
    Display.pixel (Display.flip d r c) r' c' =
      if r' = r ∧ c' = c then !Display.pixel d r c else Display.pixel d r' c' := by
  have hc' := c'.isLt
  unfold Display.pixel Display.flip
  simp only [Fin.getElem_fin, Vector.getElem_set]
  by_cases hr : r' = r
  · subst hr
    simp only [if_true, BitVec.getLsbD_xor, BitVec.getLsbD_shiftLeft]
    by_cases hc : c' = c
    · subst hc; simp
    · have hv : c'.val ≠ c.val := fun e => hc (Fin.ext e)
      by_cases hlt : c'.val < c.val
      · simp [hc, hlt]
      · simp [hc, show c'.val - c.val ≠ 0 by omega]
  · rw [if_neg (fun e => hr (Fin.ext e.symm))]
    simp [hr]

/-- A cleared display has every pixel off. -/
@[simp] theorem Display.clear_pixel (r : RowIdx) (c : ColIdx) : Display.pixel Display.clear r c = false := by
  simp [Display.pixel, Display.clear]

/-- Two displays with the same pixels are equal. -/
theorem Display.ext_pixel {d e : Display} (h : ∀ r c, Display.pixel d r c = Display.pixel e r c) : d = e := by
  apply Vector.ext
  intro i hi
  apply BitVec.eq_of_getLsbD_eq
  intro j hj
  exact h ⟨i, hi⟩ ⟨j, hj⟩

/-- Drawing a list of distinct pixels flips exactly those, and collides iff one of them was on. -/
theorem foldl_drawPixel {ps : List (RowIdx × ColIdx)} (hps : ps.Nodup) (d : Display) (hit : Bool) :
    (∀ r c, Display.pixel (ps.foldl drawPixel (d, hit)).1 r c = (Display.pixel d r c ^^ decide ((r, c) ∈ ps))) ∧
      (ps.foldl drawPixel (d, hit)).2 = (hit || ps.any fun p => Display.pixel d p.1 p.2) := by
  induction ps generalizing d hit with
  | nil => simp
  | cons p ps ih =>
    obtain ⟨hp, hps'⟩ := List.nodup_cons.1 hps
    obtain ⟨h1, h2⟩ := ih hps' (Display.flip d p.1 p.2) (hit || Display.pixel d p.1 p.2)
    rw [List.foldl_cons]
    refine ⟨fun r c => ?_, ?_⟩
    · refine (h1 r c).trans ?_
      rw [Display.flip_pixel]
      by_cases hrc : (r, c) = p
      · subst hrc
        simp [hp]
      · have hne : ¬ (r = p.1 ∧ c = p.2) := fun e => hrc (Prod.ext e.1 e.2)
        simp [hrc, hne]
    · refine h2.trans ?_
      rw [List.any_cons, Bool.or_assoc]
      have hne : ∀ q ∈ ps, ¬ (q.1 = p.1 ∧ q.2 = p.2) := fun q hq e => hp ((Prod.ext e.1 e.2 : q = p) ▸ hq)
      congr 2
      rw [Bool.eq_iff_iff, List.any_eq_true, List.any_eq_true]
      constructor <;> rintro ⟨q, hq, hv⟩ <;> refine ⟨q, hq, ?_⟩
      · rw [Display.flip_pixel, if_neg (hne q hq)] at hv
        exact hv
      · rw [Display.flip_pixel, if_neg (hne q hq)]
        exact hv

/-- The set columns of a sprite byte. -/
theorem mem_setColumns (b : Byte) (i : Nat) : i ∈ setColumns b ↔ i < 8 ∧ b.getLsbD (7 - i) = true := by
  have h : i ∈ [0, 1, 2, 3, 4, 5, 6, 7] ↔ i < 8 := by
    simp only [List.mem_cons, List.not_mem_nil, or_false]
    omega
  rw [setColumns, List.mem_filter, h]

/-- The pixels of a sprite: row j of it, column i of a set bit, wrapped. -/
theorem mem_spritePixels (vx vy : Byte) (k : Nat) (rows : List Byte) (r : RowIdx) (c : ColIdx) :
    (r, c) ∈ spritePixels vx vy k rows ↔
      ∃ j i, j < rows.length ∧ i < 8 ∧ (rows.getD j 0x00).getLsbD (7 - i) = true ∧ r = wrapRow vy (k + j) ∧ c = wrapCol vx i := by
  induction rows generalizing k with
  | nil => simp [spritePixels]
  | cons b bs ih =>
    rw [spritePixels, List.mem_append, ih, List.mem_map]
    constructor
    · rintro (⟨i, hi, he⟩ | ⟨j, i, hj, hi, hb, hr, hc⟩)
      · obtain ⟨h8, hb⟩ := (mem_setColumns b i).1 hi
        cases he
        exact ⟨0, i, by simp, h8, by simpa using hb, rfl, rfl⟩
      · exact ⟨j + 1, i, by simpa using hj, hi, by simpa using hb, by rw [hr]; congr 1; omega, hc⟩
    · rintro ⟨j, i, hj, hi, hb, hr, hc⟩
      cases j with
      | zero => exact Or.inl ⟨i, (mem_setColumns b i).2 ⟨hi, by simpa using hb⟩, by rw [hr, hc]; rfl⟩
      | succ j => exact Or.inr ⟨j, i, by simpa using hj, hi, by simpa using hb, by rw [hr]; congr 1; omega, hc⟩

/-- Rows of one sprite wrap to different rows (41_display.md R180). -/
theorem wrapRow_inj {vy : Byte} {a b : Nat} (hab : a < b) (hb : b < a + 32) : wrapRow vy a ≠ wrapRow vy b := by
  intro h
  have h' : (vy.toNat % 32 + a) % 32 = (vy.toNat % 32 + b) % 32 := congrArg Fin.val h
  omega

/-- Columns of one sprite wrap to different columns (41_display.md R180). -/
theorem wrapCol_inj {vx : Byte} {a b : Nat} (ha : a < 64) (hb : b < 64) (h : wrapCol vx a = wrapCol vx b) : a = b := by
  have h' : (vx.toNat % 64 + a) % 64 = (vx.toNat % 64 + b) % 64 := congrArg Fin.val h
  omega

/-- No pixel is addressed twice by one sprite of at most 32 rows (41_display.md R180). -/
theorem spritePixels_nodup (vx vy : Byte) (k : Nat) (rows : List Byte) (h : rows.length ≤ 32) :
    (spritePixels vx vy k rows).Nodup := by
  induction rows generalizing k with
  | nil => simp [spritePixels]
  | cons b bs ih =>
    have hl : bs.length + 1 ≤ 32 := by simpa using h
    rw [spritePixels, List.nodup_append]
    refine ⟨?_, ih (k + 1) (by omega), ?_⟩
    · have hs : (setColumns b).Nodup := List.Nodup.filter _ (by decide)
      refine List.Nodup.map_on ?_ hs
      intro i hi j hj he
      have h1 := ((mem_setColumns b i).1 hi).1
      have h2 := ((mem_setColumns b j).1 hj).1
      exact wrapCol_inj (by omega) (by omega) (congrArg Prod.snd he)
    · rintro ⟨r, c⟩ hp ⟨r', c'⟩ hq he
      obtain ⟨i, -, hi⟩ := List.mem_map.1 hp
      obtain ⟨j, i', hj, -, -, hr', -⟩ := (mem_spritePixels vx vy (k + 1) bs r' c').1 hq
      have hr : wrapRow vy k = r := congrArg Prod.fst hi
      have : wrapRow vy k = wrapRow vy (k + 1 + j) := hr.trans ((congrArg Prod.fst he).trans hr')
      exact wrapRow_inj (by omega) (by omega) this

/-- Everything a draw of at most 32 rows leaves: the sprite's pixels flipped, all others as before, and a collision iff one
of the sprite's pixels was on. -/
theorem drawSprite_spec (d : Display) (vx vy : Byte) (rows : List Byte) (h : rows.length ≤ 32) :
    (∀ r c, Display.pixel (drawSprite d vx vy rows).1 r c =
        (Display.pixel d r c ^^ decide ((r, c) ∈ spritePixels vx vy 0 rows))) ∧
      (drawSprite d vx vy rows).2 = (spritePixels vx vy 0 rows).any fun p => Display.pixel d p.1 p.2 := by
  have hf := foldl_drawPixel (spritePixels_nodup vx vy 0 rows h) d false
  exact ⟨hf.1, by rw [drawSprite, hf.2, Bool.false_or]⟩

end Sys2Proof.Machine
end

