-- ==== Sys2Proof/Laws/Meanings.lean ====
section
/-! SUPPORT. One lemma for each way the meanings with a check of their own, and load, can end; the other meanings are one
update each. -/

namespace Sys2Proof.Machine

/-- Taking a fatal error is what `Raises` says. -/
theorem raises_raise (kind : ErrorKind) (opcode : Option Word) (info : ErrorInfo) (s : State) :
    Raises (raise kind opcode info s) ⟨kind, some s.pc, opcode, info⟩ :=
  ⟨_, rfl, rfl, rfl⟩

/-! Operands -/

/-- Skipping twice over two bytes is skipping over four. -/
theorem pc_add_two_two (p : Word) : p + 2 + 2 = p + 4 := by rw [BitVec.add_assoc]; rfl

/-- The low nibble as a number. -/
theorem lowNibble_val (b : Byte) : (lowNibble b).val = b.toNat % 16 := by simp [lowNibble]

/-- FX55 stores X + 1 registers. -/
theorem State.regsUpTo_length (s : State) (x : RegIdx) : (s.regsUpTo x).length = x.val + 1 := by
  have h := x.isLt
  simp only [State.regsUpTo, List.length_take, Vector.length_toList]
  omega

/-- FX55 stores Vk as its k-th byte. -/
theorem State.regsUpTo_getD (s : State) (x : RegIdx) (k : RegIdx) (h : k ≤ x) :
    (s.regsUpTo x).getD k.val 0x00 = s.getV k := by
  have hk := k.isLt
  have hkx : k.val ≤ x.val := h
  rw [List.getD_eq_getElem _ _ (by rw [State.regsUpTo_length]; omega)]
  simp [State.regsUpTo, State.getV]

/-- FX33 stores three bytes. -/
theorem bcdDigits_length (b : Byte) : (bcdDigits b).length = 3 := rfl

/-! Meanings with a check -/

/-- 2NNN with SP = 16. -/
theorem execCall_overflow {s : State} (nnn : Addr12) (h : s.sp = 16) :
    execCall nnn s = raise .stackOverflow (some (encode (.call nnn))) .nothing s := by
  rw [execCall, if_pos h]

/-- 2NNN with SP < 16. -/
theorem execCall_push {s : State} (nnn : Addr12) (h : s.sp.toNat < 16) :
    execCall nnn s =
      .next { s with stack := s.stack.set s.sp.toNat (s.pc + 2), sp := s.sp + 1, pc := zext16 nnn } := by
  have hne : ¬ s.sp = 16 := fun e => by rw [e] at h; exact absurd h (by decide)
  rw [execCall, if_neg hne, State.push_some s _ h]
  rfl

/-- 00EE with SP = 0. -/
theorem execRet_underflow {s : State} (h : s.sp = 0) : execRet s = raise .stackUnderflow (some (encode .ret)) .nothing s := by
  rw [execRet, if_pos h]

/-- 00EE with 1 ≤ SP ≤ 16. -/
theorem execRet_pop {s : State} (h0 : 0 < s.sp.toNat) (h : s.sp.toNat - 1 < 16) :
    execRet s = .next { s with sp := s.sp - 1, pc := s.stack[s.sp.toNat - 1] } := by
  have hne : ¬ s.sp = 0 := fun e => by rw [e] at h0; exact absurd h0 (by decide)
  have he : (s.sp - 1).toNat = s.sp.toNat - 1 := by simp [BitVec.toNat_sub]; omega
  rw [execRet, if_neg hne, State.popPc_some s (he ▸ h)]
  simp only [he]

/-- DXYN inside memory. -/
theorem execDrw_ok {s : State} (x y : RegIdx) (n : BitVec 4) (h : n.toNat = 0 ∨ s.iReg.toNat + n.toNat ≤ 4096) :
    execDrw x y n s =
      .next ((s.advance.setDisp
        (drawSprite s.disp (s.getV x) (s.getV y) ((List.range' s.iReg.toNat n.toNat).map s.byteAt)).1).setV regVF
        (flagByte (drawSprite s.disp (s.getV x) (s.getV y) ((List.range' s.iReg.toNat n.toNat).map s.byteAt)).2)) := by
  rw [execDrw, readBytes_ok s h]

/-- DXYN out of memory. -/
theorem execDrw_error {s : State} (x y : RegIdx) (n : BitVec 4) (hn : 0 < n.toNat) (h : 4096 < s.iReg.toNat + n.toNat) :
    execDrw x y n s = raiseOutOfBounds (.drw x y n) (max s.iReg.toNat 0x1000) s := by
  rw [execDrw, readBytes_error s hn h]

/-- FX65 inside memory. -/
theorem execLdRegs_ok {s : State} (x : RegIdx) (h : s.iReg.toNat + (x.val + 1) ≤ 4096) :
    execLdRegs x s =
      .next ((s.advance.loadRegs ((List.range' s.iReg.toNat (x.val + 1)).map s.byteAt)).setI (s.indexAfter x)) := by
  rw [execLdRegs, readBytes_ok s (Or.inr h)]

/-- FX65 out of memory. -/
theorem execLdRegs_error {s : State} (x : RegIdx) (h : 4096 < s.iReg.toNat + (x.val + 1)) :
    execLdRegs x s = raiseOutOfBounds (.ldRegs x) (max s.iReg.toNat 0x1000) s := by
  rw [execLdRegs, readBytes_error s (Nat.succ_pos _) h]

/-- A block write answers a state that differs in memory alone, canonical memory or not. -/
theorem writeBytes_mem {s t : State} {base : Nat} {bs : List Byte} (h : writeBytes s base bs = .ok t) :
    t = { s with mem := t.mem } := by
  induction bs generalizing s base with
  | nil => cases h; rfl
  | cons b bs ih =>
    simp only [writeBytes, memWrite] at h
    split at h
    · cases h
    · next u hu =>
      split at hu
      · cases hu
      · cases hu; exact (ih h :)

/-- A block write either leaves memory or ends, canonical memory or not. -/
theorem writeBytes_total (s : State) (base : Nat) (bs : List Byte) (hn : bs ≠ []) :
    (4096 < base + bs.length ∧ writeBytes s base bs = .error (max base 0x1000)) ∨
      (base + bs.length ≤ 4096 ∧ ∃ m, writeBytes s base bs = .ok { s with mem := m }) := by
  by_cases h : 4096 < base + bs.length
  · exact Or.inl ⟨h, writeBytes_error s hn h⟩
  · refine Or.inr ⟨by omega, ?_⟩
    have hok : ∀ (bs : List Byte) (s : State) (base : Nat), base + bs.length ≤ 4096 → ∃ t, writeBytes s base bs = .ok t := by
      intro bs
      induction bs with
      | nil => exact fun s base _ => ⟨s, rfl⟩
      | cons b bs ih =>
        intro s base hl
        rw [List.length_cons] at hl
        rw [writeBytes, memWrite, if_neg (by omega)]
        exact ih _ _ (by omega)
    obtain ⟨t, ht⟩ := hok bs s base (by omega)
    exact ⟨t.mem, ht.trans (congrArg Except.ok (writeBytes_mem ht))⟩

/-- Everything FX33 can do: leave memory and halt, or change memory alone. -/
theorem execLdB_cases (s : State) (x : RegIdx) :
    (4096 < s.iReg.toNat + 3 ∧ execLdB x s = raiseOutOfBounds (.ldB x) (max s.iReg.toNat 0x1000) s) ∨
      (s.iReg.toNat + 3 ≤ 4096 ∧ ∃ m, writeBytes s s.iReg.toNat (bcdDigits (s.getV x)) = .ok { s with mem := m } ∧
        execLdB x s = .next { s with mem := m, pc := s.pc + 2 }) := by
  rcases writeBytes_total s s.iReg.toNat (bcdDigits (s.getV x)) (by simp [bcdDigits]) with ⟨h, e⟩ | ⟨h, m, e⟩
  · exact Or.inl ⟨h, by rw [execLdB, e]⟩
  · exact Or.inr ⟨h, m, e, by rw [execLdB, e]; rfl⟩

/-- Everything FX55 can do: leave memory and halt, or change memory, and I by INDEX_INCREMENT. -/
theorem execStRegs_cases (s : State) (x : RegIdx) :
    (4096 < s.iReg.toNat + (x.val + 1) ∧
        execStRegs x s = raiseOutOfBounds (.stRegs x) (max s.iReg.toNat 0x1000) s) ∨
      (s.iReg.toNat + (x.val + 1) ≤ 4096 ∧ ∃ m, writeBytes s s.iReg.toNat (s.regsUpTo x) = .ok { s with mem := m } ∧
        execStRegs x s = .next { s with mem := m, iReg := s.indexAfter x, pc := s.pc + 2 }) := by
  have hl := State.regsUpTo_length s x
  rcases writeBytes_total s s.iReg.toNat (s.regsUpTo x) (fun e => by rw [e] at hl; cases hl) with ⟨h, e⟩ | ⟨h, m, e⟩
  · exact Or.inl ⟨hl ▸ h, by rw [execStRegs, e]⟩
  · exact Or.inr ⟨hl ▸ h, m, e, by rw [execStRegs, e]; rfl⟩

/-- Everything FX0A can do: complete with a picked key, or suspend. -/
theorem execLdVxK_cases (x : RegIdx) (s : State) :
    (s.params.keywaitTrigger = .level ∧ ∃ k t, s.anyPressed = some (k, t) ∧
        execLdVxK x s = .next (t.advance.setV x (BitVec.ofNat 8 k.val))) ∨
      ((s.params.keywaitTrigger = .pressEdge ∨ s.anyPressed = none) ∧ execLdVxK x s = .next (s.suspend x)) := by
  rcases ht : s.params.keywaitTrigger with _ | _
  · rcases hp : s.anyPressed with _ | ⟨k, t⟩
    · exact Or.inr ⟨Or.inr rfl, by simp only [execLdVxK, ht, hp]⟩
    · exact Or.inl ⟨rfl, k, t, rfl, by simp only [execLdVxK, ht, hp]⟩
  · exact Or.inr ⟨Or.inl rfl, by simp only [execLdVxK, ht]⟩

/-! Ports -/

/-- A load that fits. -/
theorem load_ok (rom : List Byte) {s : State} (hp : s.params.wf = true) (hr : rom.length ≤ 3584) :
    ∃ m, load rom s = .next { State.launch s.params with mem := m, keys := s.keys, draws := s.draws } ∧
      Memory.wf (initByte s.params) m = true ∧
      ∀ c, memoryRead (initByte s.params) m c =
        if 0x200 ≤ c ∧ c < 0x200 + rom.length then rom.getD (c - 0x200) 0x00 else initByte s.params c := by
  obtain ⟨m, h1, h2, h3⟩ := copyRom_spec (s := { State.launch s.params with keys := s.keys, draws := s.draws })
    (a := 0x200) (bs := rom) rfl (by omega)
  exact ⟨m, by rw [load, if_pos hp, if_neg (by omega), h1], h2, h3⟩

/-- Everything load can do. -/
theorem load_cases (rom : List Byte) (s : State) :
    (s.params.wf = false ∧ load rom s = .refused .badConfiguration) ∨
    (s.params.wf = true ∧ 3584 < rom.length ∧ load rom s = .next (s.halt ⟨.romTooLarge, none, none, .romLength rom.length⟩)) ∨
    (s.params.wf = true ∧ rom.length ≤ 3584 ∧ ∃ m, Memory.wf (initByte s.params) m = true ∧
      load rom s = .next { State.launch s.params with mem := m, keys := s.keys, draws := s.draws }) := by
  by_cases hp : s.params.wf = true
  · by_cases hr : rom.length > 3584
    · exact Or.inr (Or.inl ⟨hp, hr, by rw [load, if_pos hp, if_pos hr]⟩)
    · obtain ⟨m, h1, h2, -⟩ := load_ok rom hp (show rom.length ≤ 3584 by omega)
      exact Or.inr (Or.inr ⟨hp, by omega, m, h2, h1⟩)
  · exact Or.inl ⟨by simpa using hp, by rw [load, if_neg hp]⟩

/-- set_key with a key 0..15. -/
theorem setKey_inside (s : State) (k : KeyIdx) (pressed : Bool) : setKey k.val pressed s = (pressKey k pressed s, .ok) := by
  have h : (0 : Int) ≤ (k.val : Int) ∧ (k.val : Int) ≤ 15 := by omega
  rw [setKey, dif_pos h]
  rfl

/-- set_key with a key outside 0..15. -/
theorem setKey_outside (s : State) {k : Int} (pressed : Bool) (h : k < 0 ∨ k > 15) :
    setKey k pressed s = (s, .localError .keyIndexOutOfRange) := by
  rw [setKey, dif_neg (by omega)]

end Sys2Proof.Machine
end

