-- ==== Sys2Proof/Laws/Step.lean ====
section
/-! SUPPORT. What any instruction can do, said once: to memory, and to the mode, the error record and SP. -/

namespace Sys2Proof.Machine

/-- Everything a call can do in a state with SP ≤ 16: overflow, or push and jump. -/
theorem execCall_cases (s : State) (nnn : Addr12) (h : s.sp.toNat ≤ 16) :
    (s.sp = 16 ∧ execCall nnn s = raise .stackOverflow (some (encode (.call nnn))) .nothing s) ∨
      (∃ h : s.sp.toNat < 16, execCall nnn s =
        .next { s with stack := s.stack.set s.sp.toNat (s.pc + 2) h, sp := s.sp + 1, pc := zext16 nnn }) := by
  by_cases hs : s.sp = 16
  · exact Or.inl ⟨hs, execCall_overflow nnn hs⟩
  · have hlt : s.sp.toNat < 16 := by
      rcases Nat.lt_or_ge s.sp.toNat 16 with e | e
      · exact e
      · exact absurd (BitVec.eq_of_toNat_eq (show s.sp.toNat = (16 : Byte).toNat by simp; omega)) hs
    exact Or.inr ⟨hlt, execCall_push nnn hlt⟩

/-- Everything a return can do in a state with SP ≤ 16: underflow, or pop. -/
theorem execRet_cases (s : State) (h : s.sp.toNat ≤ 16) :
    (s.sp = 0 ∧ execRet s = raise .stackUnderflow (some (encode .ret)) .nothing s) ∨
      (0 < s.sp.toNat ∧ ∃ h : s.sp.toNat - 1 < 16, execRet s = .next { s with sp := s.sp - 1, pc := s.stack[s.sp.toNat - 1] }) := by
  by_cases hs : s.sp = 0
  · exact Or.inl ⟨hs, execRet_underflow hs⟩
  · have hpos : 0 < s.sp.toNat := by
      rcases Nat.eq_zero_or_pos s.sp.toNat with e | e
      · exact absurd (BitVec.eq_of_toNat_eq (show s.sp.toNat = (0 : Byte).toNat by simpa using e)) hs
      · exact e
    exact Or.inr ⟨hpos, by omega, execRet_pop hpos (by omega)⟩

/-- Everything DXYN can do: leave memory and halt, or draw. -/
theorem execDrw_cases (s : State) (x y : RegIdx) (n : BitVec 4) :
    (0 < n.toNat ∧ 4096 < s.iReg.toNat + n.toNat ∧
        execDrw x y n s = raiseOutOfBounds (.drw x y n) (max s.iReg.toNat 0x1000) s) ∨
      ((n.toNat = 0 ∨ s.iReg.toNat + n.toNat ≤ 4096) ∧
        ∃ d f, execDrw x y n s = .next ((s.advance.setDisp d).setV regVF f)) := by
  by_cases hb : n.toNat = 0 ∨ s.iReg.toNat + n.toNat ≤ 4096
  · exact Or.inr ⟨hb, _, _, execDrw_ok x y n hb⟩
  · exact Or.inl ⟨by omega, by omega, execDrw_error x y n (by omega) (by omega)⟩

/-- Everything FX65 can do: leave memory and halt, or load. -/
theorem execLdRegs_cases (s : State) (x : RegIdx) :
    (4096 < s.iReg.toNat + (x.val + 1) ∧
        execLdRegs x s = raiseOutOfBounds (.ldRegs x) (max s.iReg.toNat 0x1000) s) ∨
      (s.iReg.toNat + (x.val + 1) ≤ 4096 ∧ execLdRegs x s =
        .next ((s.advance.loadRegs ((List.range' s.iReg.toNat (x.val + 1)).map s.byteAt)).setI (s.indexAfter x))) := by
  by_cases hb : s.iReg.toNat + (x.val + 1) ≤ 4096
  · exact Or.inr ⟨hb, execLdRegs_ok x hb⟩
  · exact Or.inl ⟨by omega, execLdRegs_error x (by omega)⟩

/-- An instruction keeps memory canonical and the launch parameters as they are. -/
theorem exec_canonical {i : Instr} {s t : State} (h : exec i s = .next t) (hm : s.MemoryCanonical)
    (hsp : s.sp.toNat ≤ 16) : t.MemoryCanonical ∧ t.params = s.params := by
  cases i
  case ret =>
    rcases execRet_cases s hsp with ⟨-, e⟩ | ⟨-, _, e⟩ <;> (rw [exec, e] at h; cases h; exact ⟨hm, rfl⟩)
  case call nnn =>
    rcases execCall_cases s nnn hsp with ⟨-, e⟩ | ⟨_, e⟩ <;> (rw [exec, e] at h; cases h; exact ⟨hm, rfl⟩)
  case drw x y n =>
    rcases execDrw_cases s x y n with ⟨-, -, e⟩ | ⟨-, _, _, e⟩ <;> (rw [exec, e] at h; cases h; exact ⟨hm, rfl⟩)
  case ldRegs x =>
    rcases execLdRegs_cases s x with ⟨-, e⟩ | ⟨-, e⟩ <;> (rw [exec, e] at h; cases h; exact ⟨hm, rfl⟩)
  case ldVxK x =>
    rcases execLdVxK_cases x s with ⟨-, k, u, hu, e⟩ | ⟨-, e⟩ <;> (rw [exec, e] at h; cases h)
    · obtain ⟨-, ⟨-, rfl, -⟩ | ⟨-, rfl⟩⟩ := State.anyPressed_cases hu <;> exact ⟨hm, rfl⟩
    · exact ⟨hm, rfl⟩
  case ldB x =>
    rcases execLdB_cases s x with ⟨-, e⟩ | ⟨hb, m, hw, e⟩ <;> (rw [exec, e] at h; cases h)
    · exact ⟨hm, rfl⟩
    · obtain ⟨m', hw', hc, -⟩ := writeBytes_ok (bs := bcdDigits (s.getV x)) hm (Or.inr hb)
      have hmm : m = m' := congrArg State.mem (Except.ok.inj (hw.symm.trans hw'))
      exact ⟨hmm ▸ hc, rfl⟩
  case stRegs x =>
    rcases execStRegs_cases s x with ⟨-, e⟩ | ⟨hb, m, hw, e⟩ <;> (rw [exec, e] at h; cases h)
    · exact ⟨hm, rfl⟩
    · obtain ⟨m', hw', hc, -⟩ := writeBytes_ok hm (Or.inr (show _ ≤ 4096 from (s.regsUpTo_length x).symm ▸ hb))
      have hmm : m = m' := congrArg State.mem (Except.ok.inj (hw.symm.trans hw'))
      exact ⟨hmm ▸ hc, rfl⟩
  all_goals
    cases h
    first
    | exact ⟨hm, rfl⟩
    | (simp [State.MemoryCanonical] at hm ⊢; exact hm)

/-- What any instruction does to the control state of a running core without an error and with SP ≤ 16: halt it with a
record, go on, or suspend it in FX0A. -/
theorem exec_control {i : Instr} {s t : State} (h : exec i s = .next t) (hr : s.mode = .running) (he : s.err = none)
    (hsp : s.sp.toNat ≤ 16) :
    (t.mode = .halted ∧ t.err ≠ none ∧ t.keyEvent = s.keyEvent) ∨
      (t.mode = .running ∧ t.err = none ∧ t.keyEvent = s.keyEvent ∧ t.sp.toNat ≤ 16) ∨
      (∃ x, i = .ldVxK x ∧ t = s.suspend x) := by
  cases i
  case ret =>
    rcases execRet_cases s hsp with ⟨-, e⟩ | ⟨h0, _, e⟩ <;> (rw [exec, e] at h; cases h)
    · exact Or.inl ⟨rfl, by simp, rfl⟩
    · exact Or.inr (Or.inl ⟨hr, he, rfl, by simp [BitVec.toNat_sub]; omega⟩)
  case call nnn =>
    rcases execCall_cases s nnn hsp with ⟨-, e⟩ | ⟨_, e⟩ <;> (rw [exec, e] at h; cases h)
    · exact Or.inl ⟨rfl, by simp, rfl⟩
    · exact Or.inr (Or.inl ⟨hr, he, rfl, by simp; omega⟩)
  case drw x y n =>
    rcases execDrw_cases s x y n with ⟨-, -, e⟩ | ⟨-, _, _, e⟩ <;> (rw [exec, e] at h; cases h)
    · exact Or.inl ⟨rfl, by simp, rfl⟩
    · exact Or.inr (Or.inl ⟨hr, he, rfl, hsp⟩)
  case ldRegs x =>
    rcases execLdRegs_cases s x with ⟨-, e⟩ | ⟨-, e⟩ <;> (rw [exec, e] at h; cases h)
    · exact Or.inl ⟨rfl, by simp, rfl⟩
    · exact Or.inr (Or.inl ⟨hr, he, rfl, hsp⟩)
  case ldB x =>
    rcases execLdB_cases s x with ⟨-, e⟩ | ⟨-, m, -, e⟩ <;> (rw [exec, e] at h; cases h)
    · exact Or.inl ⟨rfl, by simp, rfl⟩
    · exact Or.inr (Or.inl ⟨hr, he, rfl, hsp⟩)
  case stRegs x =>
    rcases execStRegs_cases s x with ⟨-, e⟩ | ⟨-, m, -, e⟩ <;> (rw [exec, e] at h; cases h)
    · exact Or.inl ⟨rfl, by simp, rfl⟩
    · exact Or.inr (Or.inl ⟨hr, he, rfl, hsp⟩)
  case ldVxK x =>
    rcases execLdVxK_cases x s with ⟨-, k, u, hu, e⟩ | ⟨-, e⟩ <;> (rw [exec, e] at h; cases h)
    · obtain ⟨-, ⟨-, rfl, -⟩ | ⟨-, rfl⟩⟩ := State.anyPressed_cases hu <;> exact Or.inr (Or.inl ⟨hr, he, rfl, hsp⟩)
    · exact Or.inr (Or.inr ⟨x, rfl, rfl⟩)
  all_goals
    cases h
    refine Or.inr (Or.inl ?_)
    first
    | exact ⟨hr, he, rfl, hsp⟩
    | (simp; exact ⟨hr, he, hsp⟩)

/-- What any instruction does to the error record: nothing, or it raises the one error it can raise. -/
theorem exec_err {i : Instr} {s t : State} (h : exec i s = .next t) :
    t.err = s.err ∨
    ((∃ nnn, i = .call nnn) ∧ s.sp = 16 ∧ t = s.halt ⟨.stackOverflow, some s.pc, some (encode i), .nothing⟩) ∨
    (i = .ret ∧ s.sp = 0 ∧ t = s.halt ⟨.stackUnderflow, some s.pc, some (encode i), .nothing⟩) ∨
    (∃ len, ((∃ x y n, i = .drw x y n ∧ len = n.toNat) ∨ (∃ x, i = .ldB x ∧ len = 3) ∨
        (∃ x, i = .stRegs x ∧ len = x.val + 1) ∨ (∃ x, i = .ldRegs x ∧ len = x.val + 1)) ∧
      0 < len ∧ 4096 < s.iReg.toNat + len ∧
      t = s.halt ⟨.memoryOutOfBounds, some s.pc, some (encode i), .addr (max s.iReg.toNat 0x1000)⟩) := by
  cases i
  case ret =>
    simp only [exec, execRet] at h
    split at h
    · next h0 => cases h; exact Or.inr (Or.inr (Or.inl ⟨rfl, h0, rfl⟩))
    · split at h
      · next u hu => unfold State.popPc at hu; split at hu <;> cases hu; cases h; exact Or.inl rfl
      · cases h
  case call nnn =>
    simp only [exec, execCall] at h
    split at h
    · next h0 => cases h; exact Or.inr (Or.inl ⟨⟨_, rfl⟩, h0, rfl⟩)
    · split at h
      · next u hu => unfold State.push at hu; split at hu <;> cases hu; cases h; exact Or.inl rfl
      · cases h
  case drw x y n =>
    rcases execDrw_cases s x y n with ⟨h0, hb, e⟩ | ⟨-, _, _, e⟩ <;> (rw [exec, e] at h; cases h)
    · exact Or.inr (Or.inr (Or.inr ⟨_, Or.inl ⟨_, _, _, rfl, rfl⟩, h0, hb, rfl⟩))
    · exact Or.inl rfl
  case ldRegs x =>
    rcases execLdRegs_cases s x with ⟨hb, e⟩ | ⟨-, e⟩ <;> (rw [exec, e] at h; cases h)
    · exact Or.inr (Or.inr (Or.inr ⟨_, Or.inr (Or.inr (Or.inr ⟨_, rfl, rfl⟩)), Nat.succ_pos _, hb, rfl⟩))
    · exact Or.inl rfl
  case ldB x =>
    rcases execLdB_cases s x with ⟨hb, e⟩ | ⟨-, m, -, e⟩ <;> (rw [exec, e] at h; cases h)
    · exact Or.inr (Or.inr (Or.inr ⟨_, Or.inr (Or.inl ⟨_, rfl, rfl⟩), by decide, hb, rfl⟩))
    · exact Or.inl rfl
  case stRegs x =>
    rcases execStRegs_cases s x with ⟨hb, e⟩ | ⟨-, m, -, e⟩ <;> (rw [exec, e] at h; cases h)
    · exact Or.inr (Or.inr (Or.inr ⟨_, Or.inr (Or.inr (Or.inl ⟨_, rfl, rfl⟩)), Nat.succ_pos _, hb, rfl⟩))
    · exact Or.inl rfl
  case ldVxK x =>
    rcases execLdVxK_cases x s with ⟨-, k, u, hu, e⟩ | ⟨-, e⟩ <;> (rw [exec, e] at h; cases h)
    · obtain ⟨-, ⟨-, rfl, -⟩ | ⟨-, rfl⟩⟩ := State.anyPressed_cases hu <;> exact Or.inl rfl
    · exact Or.inl rfl
  all_goals
    cases h
    refine Or.inl ?_
    first
    | rfl
    | simp

end Sys2Proof.Machine
end

