-- ==== Sys2Proof/Tests/Slice0.lean ====
section
/-! SUPPORT. Small tests, each with its expected result from spec/95_test_vectors.md or a rule's own example, and for each
statement a state and operands that meet all its hypotheses. -/

namespace Sys2Proof.Tests

open Sys2Proof Sys2Proof.Machine

/-! ### Helpers -/

/-- A state with some registers set. -/
def regs (l : List (RegIdx × Byte)) (s : State) : State := l.foldl (fun s p => s.setV p.1 p.2) s

/-- A state with bytes placed in memory from an address on. -/
def bytes (a : Nat) (bs : List Byte) (s : State) : State := copyRom s a bs

/-- The state after one step of the instruction word w placed at pc. -/
def after (w : Nat) (s : State) : Option State :=
  match step (s.withFetchWord 16 w) with
  | .next t => some t
  | _ => none

/-- The state after one step at pc, with memory as it is. -/
def stepped (s : State) : Option State :=
  match step s with
  | .next t => some t
  | _ => none

/-- The state after one port operation. -/
def ported (op : PortOp) (s : State) : Option State :=
  match port op s with
  | .next t => some t
  | _ => none

/-- The launch state with SHIFT_SRC = VX, LOGIC_VF_RESET, INDEX_INCREMENT, PRESS_EDGE and KEY_PICK = ANY. -/
def quirky : State := State.launch { Params.standard with
  shiftSrc := .vx, logicVfReset := true, indexIncrement := true, keywaitTrigger := .pressEdge, keyPick := .any }

/-- The launch state with LEVEL and KEY_PICK = ANY. -/
def anyKey : State := State.launch { Params.standard with keyPick := .any }

/-- A core halted by an illegal word 0x0123 at 0x200. -/
def dead : State := State.reset.halt ⟨.unknownOpcode, some 0x200, some 0x0123, .nothing⟩

/-- A core waiting in 0xF30A at 0x200. -/
def waiting : State := (State.reset.withFetchWord 16 0xF30A).suspend 3

/-- A core with PRESS_EDGE waiting in 0xF30A at 0x200. -/
def waitingEdge : State := (quirky.withFetchWord 16 0xF30A).suspend 3

/-! ### WellFormed: an ill-formed term for each check -/

/-- One illegal word of each of the six families of R106, and the illegal words of 95_test_vectors.md. -/
theorem test_illegal_words_are_refused :
    ([0x0000, 0x0123, 0x00E1, 0x00FE, 0x5121, 0x8008, 0x800F, 0x9121, 0xE1A0, 0xF0FF, 0xFFFF] : List Word).all
      (fun op => !Word.legal op && decide (decodeWord op = .error (.illegal op))) = true := by decide

/-- A legal word of each high nibble. -/
theorem test_legal_words_are_accepted :
    ([0x00E0, 0x00EE, 0x1FFF, 0x2000, 0x3FFF, 0x4000, 0x5FF0, 0x6000, 0x7FFF, 0x8FF7, 0x800E, 0x9000, 0xA000, 0xBFFF] ++
      [0xC000, 0xDFFF, 0xEF9E, 0xE0A1, 0xFF07, 0xF065] : List Word).all Word.legal = true := by decide

/-- A memory whose addresses do not rise strictly is ill formed. -/
theorem test_unsorted_memory_is_refused :
    Memory.wf (fun _ => 0x00) [(0x300, 0x01), (0x2FF, 0x01)] = false ∧
    Memory.wf (fun _ => 0x00) [(0x300, 0x01), (0x300, 0x02)] = false := by decide

/-- A memory with a cell above 0xFFF is ill formed. -/
theorem test_memory_outside_the_address_space_is_refused :
    Memory.wf (fun _ => 0x00) [(0xFFF, 0x01)] = true ∧ Memory.wf (fun _ => 0x00) [(0x1000, 0x01)] = false := by decide

/-- A memory that lists what an unlisted address reads as is ill formed. -/
theorem test_redundant_cell_is_refused : Memory.wf (fun _ => 0x00) [(0x300, 0x00)] = false := by decide

/-- FONT_BASE + 79 = 0xFFF is the last legal font address (R331). -/
theorem test_font_base_bound :
    ({ Params.standard with fontBase := 0xFB0 } : Params).wf = true ∧
    ({ Params.standard with fontBase := 0xFB1 } : Params).wf = false := by decide

/-- A font of 79 bytes, and a MEM_INIT out of form, are ill formed. -/
theorem test_bad_font_and_mem_init_are_refused :
    ({ Params.standard with font := standardFont.tail } : Params).wf = false ∧
    ({ Params.standard with memInit := [(0x300, 0x00)] } : Params).wf = false := by decide

/-- Three bytes decode to one instruction and one byte; one byte decodes to nothing (R100). -/
theorem test_decode_takes_two_bytes :
    decode [0x6A, 0x3C, 0x77] = .ok (.ldImm 0xA 0x3C, [0x77]) ∧ decode [0x6A] = .error .truncated := by decide

/-- The table's word is laid out high byte first, and an illegal one is refused. -/
theorem test_table_word :
    decodeTableWord 16 0xDAB5 = some (.drw 0xA 0xB 5) ∧ decodeTableWord 16 0x0000 = none := by decide

/-! ### Every constructor decoded from a word written bit by bit (30_encoding.md R101, R105) -/

theorem test_decode_cls : decodeWord 0b0000000011100000#16 = .ok .cls := by decide

theorem test_decode_ret : decodeWord 0b0000000011101110#16 = .ok .ret := by decide

theorem test_decode_jp : decodeWord 0b0001001000000100#16 = .ok (.jp 0x204) := by decide

theorem test_decode_call : decodeWord 0b0010001000010000#16 = .ok (.call 0x210) := by decide

theorem test_decode_seImm : decodeWord 0b0011000000000101#16 = .ok (.seImm 0 0x05) := by decide

theorem test_decode_sneImm : decodeWord 0b0100000100000101#16 = .ok (.sneImm 1 0x05) := by decide

theorem test_decode_seReg : decodeWord 0b0101000100100000#16 = .ok (.seReg 1 2) := by decide

theorem test_decode_ldImm : decodeWord 0b0110101000111100#16 = .ok (.ldImm 0xA 0x3C) := by decide

theorem test_decode_addImm : decodeWord 0b0111111111111110#16 = .ok (.addImm 0xF 0xFE) := by decide

theorem test_decode_ldReg : decodeWord 0b1000000100100000#16 = .ok (.ldReg 1 2) := by decide

theorem test_decode_orReg : decodeWord 0b1000001101000001#16 = .ok (.orReg 3 4) := by decide

theorem test_decode_andReg : decodeWord 0b1000010101100010#16 = .ok (.andReg 5 6) := by decide

theorem test_decode_xorReg : decodeWord 0b1000011110000011#16 = .ok (.xorReg 7 8) := by decide

theorem test_decode_addReg : decodeWord 0b1000100110100100#16 = .ok (.addReg 9 0xA) := by decide

theorem test_decode_subReg : decodeWord 0b1000101111000101#16 = .ok (.subReg 0xB 0xC) := by decide

theorem test_decode_shr : decodeWord 0b1000110111100110#16 = .ok (.shr 0xD 0xE) := by decide

theorem test_decode_subn : decodeWord 0b1000111100010111#16 = .ok (.subn 0xF 1) := by decide

theorem test_decode_shl : decodeWord 0b1000000100101110#16 = .ok (.shl 1 2) := by decide

theorem test_decode_sneReg : decodeWord 0b1001001000010000#16 = .ok (.sneReg 2 1) := by decide

theorem test_decode_ldI : decodeWord 0b1010001100000000#16 = .ok (.ldI 0x300) := by decide

theorem test_decode_jpV0 : decodeWord 0b1011111111111111#16 = .ok (.jpV0 0xFFF) := by decide

theorem test_decode_rnd : decodeWord 0b1100011000001111#16 = .ok (.rnd 6 0x0F) := by decide

theorem test_decode_drw : decodeWord 0b1101000000010101#16 = .ok (.drw 0 1 5) := by decide

theorem test_decode_skp : decodeWord 0b1110000110011110#16 = .ok (.skp 1) := by decide

theorem test_decode_sknp : decodeWord 0b1110001010100001#16 = .ok (.sknp 2) := by decide

theorem test_decode_ldVxDt : decodeWord 0b1111000100000111#16 = .ok (.ldVxDt 1) := by decide

theorem test_decode_ldVxK : decodeWord 0b1111001100001010#16 = .ok (.ldVxK 3) := by decide

theorem test_decode_ldDtVx : decodeWord 0b1111010000010101#16 = .ok (.ldDtVx 4) := by decide

theorem test_decode_ldStVx : decodeWord 0b1111010100011000#16 = .ok (.ldStVx 5) := by decide

theorem test_decode_addI : decodeWord 0b1111011000011110#16 = .ok (.addI 6) := by decide

theorem test_decode_ldF : decodeWord 0b1111011100101001#16 = .ok (.ldF 7) := by decide

theorem test_decode_ldB : decodeWord 0b1111100000110011#16 = .ok (.ldB 8) := by decide

theorem test_decode_stRegs : decodeWord 0b1111100101010101#16 = .ok (.stRegs 9) := by decide

theorem test_decode_ldRegs : decodeWord 0b1111101001100101#16 = .ok (.ldRegs 0xA) := by decide

/-! ### One step of each instruction -/

/-- R182: every pixel off, VF unchanged. -/
theorem test_cls :
    (after 0x00E0 ((regs [(15, 0x07)] State.reset).setDisp (Vector.replicate 32 0xFF))).map (fun t => (t.disp, t.getV 15, t.pc)) = some (Display.clear, 0x07, 0x202) := by decide

/-- 95 part 2: 00EE with SP = 1, stack[0] = 0x206. -/
theorem test_ret :
    (after 0x00EE ({ State.reset with sp := 1, stack := (Vector.replicate 16 0).set 0 0x206 })).map (fun t => (t.sp, t.pc, t.err)) = some (0, 0x206, none) := by decide

/-- 95 part 2: 00EE with SP = 0. -/
theorem test_ret_underflow :
    (after 0x00EE (State.reset)).map (fun t => (t.mode, t.err)) = some (.halted, some ⟨.stackUnderflow, some 0x200, some 0x00EE, .nothing⟩) := by decide

/-- 95 part 2: 1204 at 0x208. -/
theorem test_jp :
    (after 0x1204 (State.reset.setPc 0x208)).map (fun t => (t.pc)) = some (0x204) := by decide

/-- 95 part 2: 2300 with SP = 15. -/
theorem test_call :
    (after 0x2300 ({ State.reset with sp := 15 })).map (fun t => (t.stack[15], t.sp, t.pc)) = some (0x202, 16, 0x300) := by decide

/-- 95 part 2: 2300 with SP = 16. -/
theorem test_call_overflow :
    (after 0x2300 ({ State.reset with sp := 16 })).map (fun t => (t.mode, t.err)) = some (.halted, some ⟨.stackOverflow, some 0x200, some 0x2300, .nothing⟩) := by decide

/-- 95 part 2: 3005 with V0 = 0x05. -/
theorem test_se_imm :
    (after 0x3005 (regs [(0, 0x05)] State.reset)).map (fun t => (t.pc)) = some (0x204) := by decide

/-- 95 part 2: 3005 with V0 = 0x04. -/
theorem test_se_imm_unequal :
    (after 0x3005 (regs [(0, 0x04)] State.reset)).map (fun t => (t.pc)) = some (0x202) := by decide

/-- 95 part 2: 4005 with V0 = 0x04. -/
theorem test_sne_imm :
    (after 0x4005 (regs [(0, 0x04)] State.reset)).map (fun t => (t.pc)) = some (0x204) := by decide

/-- 95 part 2: 5120 with V1 = V2 = 0x33. -/
theorem test_se_reg :
    (after 0x5120 (regs [(1, 0x33), (2, 0x33)] State.reset)).map (fun t => (t.pc)) = some (0x204) := by decide

/-- 95 part 2: 9120 with V1 = 0x01, V2 = 0x02. -/
theorem test_sne_reg :
    (after 0x9120 (regs [(1, 0x01), (2, 0x02)] State.reset)).map (fun t => (t.pc)) = some (0x204) := by decide

/-- 95 part 2: 9120 with V1 = V2 = 0x01. -/
theorem test_sne_reg_equal :
    (after 0x9120 (regs [(1, 0x01), (2, 0x01)] State.reset)).map (fun t => (t.pc)) = some (0x202) := by decide

/-- 95 part 2: 6FAA. -/
theorem test_ld_imm :
    (after 0x6FAA (regs [(15, 0x01)] State.reset)).map (fun t => (t.getV 15, t.pc)) = some (0xAA, 0x202) := by decide

/-- 95 part 2: 70FF with V0 = 0x02, VF = 0x07. -/
theorem test_add_imm :
    (after 0x70FF (regs [(0, 0x02), (15, 0x07)] State.reset)).map (fun t => (t.getV 0, t.getV 15)) = some (0x01, 0x07) := by decide

/-- 95 part 2: 8120 with V2 = 0x7E. -/
theorem test_ld_reg :
    (after 0x8120 (regs [(2, 0x7E)] State.reset)).map (fun t => (t.getV 1)) = some (0x7E) := by decide

/-- 95 part 2: 8011. -/
theorem test_or_reg :
    (after 0x8011 (regs [(0, 0xF0), (1, 0x0F), (15, 0x05)] State.reset)).map (fun t => (t.getV 0, t.getV 15)) = some (0xFF, 0x05) := by decide

/-- 95 part 2: 8011 with LOGIC_VF_RESET. -/
theorem test_or_reg_vf_reset :
    (after 0x8011 (regs [(0, 0xF0), (1, 0x0F), (15, 0x05)] quirky)).map (fun t => (t.getV 0, t.getV 15)) = some (0xFF, 0x00) := by decide

/-- 95 part 2: 8012. -/
theorem test_and_reg :
    (after 0x8012 (regs [(0, 0xF3), (1, 0x3F)] State.reset)).map (fun t => (t.getV 0)) = some (0x33) := by decide

/-- 95 part 2: 8013. -/
theorem test_xor_reg :
    (after 0x8013 (regs [(0, 0xFF), (1, 0x0F)] State.reset)).map (fun t => (t.getV 0)) = some (0xF0) := by decide

/-- 95 part 2: 8014 with V0 = 0xFF, V1 = 0x01. -/
theorem test_add_reg :
    (after 0x8014 (regs [(0, 0xFF), (1, 0x01)] State.reset)).map (fun t => (t.getV 0, t.getV 15)) = some (0x00, 0x01) := by decide

/-- 95 part 2: 8F14 with VF = 0x80, V1 = 0x80. -/
theorem test_add_reg_into_vf :
    (after 0x8F14 (regs [(15, 0x80), (1, 0x80)] State.reset)).map (fun t => (t.getV 15)) = some (0x01) := by decide

/-- 95 part 2: 8015 with V0 = 0x03, V1 = 0x05. -/
theorem test_sub_reg :
    (after 0x8015 (regs [(0, 0x03), (1, 0x05)] State.reset)).map (fun t => (t.getV 0, t.getV 15)) = some (0xFE, 0x00) := by decide

/-- S13: 8015 with V0 = V1 = 0x05. -/
theorem test_sub_reg_equal :
    (after 0x8015 (regs [(0, 0x05), (1, 0x05)] State.reset)).map (fun t => (t.getV 0, t.getV 15)) = some (0x00, 0x01) := by decide

/-- 95 part 2: 8016 with SHIFT_SRC = VY. -/
theorem test_shr_vy :
    (after 0x8016 (regs [(0, 0x05), (1, 0x80)] State.reset)).map (fun t => (t.getV 0, t.getV 15)) = some (0x40, 0x00) := by decide

/-- 95 part 2: 8016 with SHIFT_SRC = VX. -/
theorem test_shr_vx :
    (after 0x8016 (regs [(0, 0x05), (1, 0x80)] quirky)).map (fun t => (t.getV 0, t.getV 15)) = some (0x02, 0x01) := by decide

/-- 95 part 2: 8017 with V0 = 0x05, V1 = 0x03. -/
theorem test_subn :
    (after 0x8017 (regs [(0, 0x05), (1, 0x03)] State.reset)).map (fun t => (t.getV 0, t.getV 15)) = some (0xFE, 0x00) := by decide

/-- 95 part 2: 801E with SHIFT_SRC = VY. -/
theorem test_shl_vy :
    (after 0x801E (regs [(0, 0x81), (1, 0x40)] State.reset)).map (fun t => (t.getV 0, t.getV 15)) = some (0x80, 0x00) := by decide

/-- 95 part 2: 801E with SHIFT_SRC = VX. -/
theorem test_shl_vx :
    (after 0x801E (regs [(0, 0x81), (1, 0x40)] quirky)).map (fun t => (t.getV 0, t.getV 15)) = some (0x02, 0x01) := by decide

/-- 95 part 2: A300 with I = 0xFFFF. -/
theorem test_ld_i :
    (after 0xA300 (State.reset.setI 0xFFFF)).map (fun t => (t.iReg)) = some (0x300) := by decide

/-- 95 part 2: BFFF with V0 = 0xFF. -/
theorem test_jp_v0 :
    (after 0xBFFF (regs [(0, 0xFF)] State.reset)).map (fun t => (t.pc)) = some (0x10FE) := by decide

/-- 95 part 2: C00F keeps only the low nibble of the drawn byte. -/
theorem test_rnd :
    (after 0xC00F (State.reset)).map (fun t => (t.getV 0)) = some (Config.freeByte 0 &&& 0x0F) := rfl

/-- 95 part 2: D015 of glyph 0 at (60, 0). -/
theorem test_drw :
    (after 0xD015 ((regs [(0, 0x3C), (1, 0x00)] State.reset).setI 0x050)).map (fun t => (t.disp.toList.take 6, t.getV 15)) = some ([0xF000000000000000, 0x9000000000000000, 0x9000000000000000, 0x9000000000000000, 0xF000000000000000, 0], 0x00) := by decide

/-- S5 over a lit pixel at (62, 0): D011 of 0xFF lights columns 60–63 and 0–3, but turns 62 off. -/
theorem test_drw_wraps_and_collides :
    (after 0xD011 (((regs [(0, 60), (1, 0)] (bytes 0x300 [0xFF] State.reset)).setI 0x300).setDisp ((Vector.replicate 32 0).set 0 0x4000000000000000))).map (fun t => (t.disp[0], t.getV 15)) = some (0xB00000000000000F, 0x01) := by decide

/-- 95 part 2: E19E with V1 = 0x15, key 5 held. -/
theorem test_skp :
    (after 0xE19E (regs [(1, 0x15)] (pressKey 5 true State.reset))).map (fun t => (t.pc)) = some (0x204) := by decide

/-- 95 part 2: E19E with V1 = 0x05, no key. -/
theorem test_skp_released :
    (after 0xE19E (regs [(1, 0x05)] State.reset)).map (fun t => (t.pc)) = some (0x202) := by decide

/-- 95 part 2: E1A1 with V1 = 0x05, no key. -/
theorem test_sknp :
    (after 0xE1A1 (regs [(1, 0x05)] State.reset)).map (fun t => (t.pc)) = some (0x204) := by decide

/-- 95 part 2: E1A1 with V1 = 0x05, key 5 held. -/
theorem test_sknp_pressed :
    (after 0xE1A1 (regs [(1, 0x05)] (pressKey 5 true State.reset))).map (fun t => (t.pc)) = some (0x202) := by decide

/-- 95 part 2: F107 with DT = 0x2A. -/
theorem test_ld_vx_dt :
    (after 0xF107 (State.reset.setDt 0x2A)).map (fun t => (t.getV 1)) = some (0x2A) := by decide

/-- 95 part 2: F30A (LEVEL) with keys 2 and 9 held. -/
theorem test_ld_vx_k :
    (after 0xF30A (pressKey 9 true (pressKey 2 true State.reset))).map (fun t => (t.getV 3, t.pc, t.mode)) = some (0x02, 0x202, .running) := by decide

/-- 95 part 2: F30A (PRESS_EDGE) with keys 2 and 9 held. -/
theorem test_ld_vx_k_edge :
    (after 0xF30A (pressKey 9 true (pressKey 2 true quirky))).map (fun t => (t.getV 3, t.pc, t.mode)) = some (0x00, 0x200, .awaitingKey 3) := by decide

/-- 95 part 2: F015 with V0 = 0x07. -/
theorem test_ld_dt_vx :
    (after 0xF015 (regs [(0, 0x07)] State.reset)).map (fun t => (t.dt)) = some (0x07) := by decide

/-- 95 part 2: F218 with V2 = 0x10. -/
theorem test_ld_st_vx :
    (after 0xF218 (regs [(2, 0x10)] State.reset)).map (fun t => (t.st, t.tone)) = some (0x10, true) := by decide

/-- 95 part 2: F01E with I = 0xFFFF, V0 = 0x02. -/
theorem test_add_i :
    (after 0xF01E ((regs [(0, 0x02), (15, 0x07)] State.reset).setI 0xFFFF)).map (fun t => (t.iReg, t.getV 15)) = some (0x0001, 0x07) := by decide

/-- 95 part 2: F129 with V1 = 0x1A. -/
theorem test_ld_f :
    (after 0xF129 (regs [(1, 0x1A)] State.reset)).map (fun t => (t.iReg)) = some (0x082) := by decide

/-- 95 part 2: F033 with V0 = 234, I = 0xFFD. -/
theorem test_ld_b :
    (after 0xF033 ((regs [(0, 234)] State.reset).setI 0xFFD)).map (fun t => ([t.byteAt 0xFFD, t.byteAt 0xFFE, t.byteAt 0xFFF], t.iReg)) = some ([0x02, 0x03, 0x04], 0xFFD) := by decide

/-- 95 part 2: F033 with V0 = 234, I = 0xFFE. -/
theorem test_ld_b_out_of_bounds :
    (after 0xF033 ((regs [(0, 234)] State.reset).setI 0xFFE)).map (fun t => (t.mode, t.err)) = some (.halted, some ⟨.memoryOutOfBounds, some 0x200, some 0xF033, .addr 0x1000⟩) := by decide

/-- R270, the example of FX55. -/
theorem test_st_regs :
    (after 0xF255 ((regs [(0, 0x11), (1, 0x22), (2, 0x33), (3, 0x44)] State.reset).setI 0x300)).map (fun t => ([t.byteAt 0x300, t.byteAt 0x301, t.byteAt 0x302, t.byteAt 0x303], t.iReg)) = some ([0x11, 0x22, 0x33, 0x00], 0x300) := by decide

/-- R270, the example of FX55 with INDEX_INCREMENT. -/
theorem test_st_regs_increment :
    (after 0xF255 ((regs [(0, 0x11), (1, 0x22), (2, 0x33)] quirky).setI 0x300)).map (fun t => ([t.byteAt 0x300, t.byteAt 0x301, t.byteAt 0x302], t.iReg)) = some ([0x11, 0x22, 0x33], 0x303) := by decide

/-- 95 part 2: F265 with bytes 09 08 07. -/
theorem test_ld_regs :
    (after 0xF265 ((regs [(3, 0x55)] (bytes 0x300 [0x09, 0x08, 0x07, 0x06] State.reset)).setI 0x300)).map (fun t => ([t.getV 0, t.getV 1, t.getV 2, t.getV 3], t.iReg)) = some ([0x09, 0x08, 0x07, 0x55], 0x300) := by decide

/-- 95 part 2: F265 with I = 0x1005. -/
theorem test_ld_regs_out_of_bounds :
    (after 0xF265 (State.reset.setI 0x1005)).map (fun t => (t.mode, t.err)) = some (.halted, some ⟨.memoryOutOfBounds, some 0x200, some 0xF265, .addr 0x1005⟩) := by decide

/-! ### The step cycle and the ports -/

/-- 95 part 2: 0123. -/
theorem test_illegal_word_halts :
    (after 0x0123 State.reset).map (fun t => (t.mode, t.err, t.pc)) =
      some (.halted, some ⟨.unknownOpcode, some 0x200, some 0x0123, .nothing⟩, 0x200) := by decide

/-- 95 part 2: the fetch at 0xFFE. -/
theorem test_last_legal_fetch :
    (stepped ((bytes 0xFFE [0x12, 0x00] State.reset).setPc 0xFFE)).map (fun t => t.pc) = some 0x200 := by decide

/-- 95 part 2: the fetch at 0xFFF. -/
theorem test_fetch_at_the_top_halts :
    (stepped (State.reset.setPc 0xFFF)).map (fun t => (t.mode, t.err)) =
      some (.halted, some ⟨.memoryOutOfBounds, some 0xFFF, none, .addr 0x1000⟩) := by decide

/-- 95 part 2: the fetch at 0x1234. -/
theorem test_fetch_above_memory_halts :
    (stepped (State.reset.setPc 0x1234)).map (fun t => t.err) =
      some (some ⟨.memoryOutOfBounds, some 0x1234, none, .addr 0x1234⟩) := by decide

/-- 95 part 2: 6042 at 0x201. -/
theorem test_odd_pc :
    (after 0x6042 (State.reset.setPc 0x201)).map (fun t => (t.getV 0, t.pc)) = some (0x42, 0x203) := by decide

/-- R106: a core reset with nothing loaded fetches 0x0000 and halts (log entry 5). -/
theorem test_empty_rom_halts_at_once :
    (stepped State.reset).map (fun t => t.err) = some (some ⟨.unknownOpcode, some 0x200, some 0x0000, .nothing⟩) := by decide

/-- R306: a step of a halted core changes nothing. -/
theorem test_halted_step_repeats_the_error :
    stepped dead = some dead ∧ portAnswer .step dead dead = .fatal .unknownOpcode := by decide

/-- R201: a step with no key changes nothing. -/
theorem test_wait_holds :
    stepped waiting = some waiting := by decide

/-- R202: key 9 ends the wait in 0xF30A with LEVEL. -/
theorem test_wait_resumes :
    (stepped (pressKey 9 true waiting)).map (fun t => (t.getV 3, t.pc, t.mode)) = some (0x09, 0x202, .running) := by decide

/-- R202, R231: with PRESS_EDGE the first key pressed during the wait is the one taken. -/
theorem test_edge_wait_resumes :
    (stepped (pressKey 2 true (pressKey 9 true waitingEdge))).map (fun t => (t.getV 3, t.pc, t.keyEvent)) =
      some (0x09, 0x202, none) := by decide

/-- S9 and R220: DT goes from 1 to 0 and ST stays at 0. -/
theorem test_tick :
    (ported .tick (State.reset.setDt 0x01)).map (fun t => (t.dt, t.st)) = some (0x00, 0x00) := by decide

/-- 95 part 2: tick in mode Halted with DT = 5. -/
theorem test_tick_halted :
    (ported .tick (dead.setDt 0x05)).map (fun t => t.dt) = some 0x05 := by decide

/-- 95 part 2: set_key(3, true) in mode Halted. -/
theorem test_set_key_halted :
    (ported (.setKey 3 true) dead).map (fun t => t.keys) = some 0x0008 := by decide

/-- S12: set_key(16, true), and R232: set_key(−1, true). -/
theorem test_set_key_local_error :
    portAnswer (.setKey 16 true) State.reset State.reset = .localError .keyIndexOutOfRange ∧
    ported (.setKey (-1) true) State.reset = some State.reset ∧ localErrorCode .keyIndexOutOfRange = 16 := by decide

/-- 95 part 2, Reset: a load of four bytes in mode Halted with key 3 held. -/
theorem test_load :
    (ported (.load [0x60, 0x42, 0x12, 0x00]) (pressKey 3 true dead)).map
        (fun t => (t.mode, t.err, t.pc, t.keys, [t.byteAt 0x200, t.byteAt 0x203, t.byteAt 0x204, t.byteAt 0x050, t.byteAt 0x09F])) =
      some (.running, none, 0x200, 0x0008, [0x60, 0x00, 0x00, 0xF0, 0x80]) := by decide

/-- S8: one byte too many. -/
theorem test_load_too_large :
    ported (.load (List.replicate 3585 0x00)) State.reset = some (State.reset.halt ⟨.romTooLarge, none, none, .romLength 3585⟩) := by
  simp only [ported, port, load, List.length_replicate]
  decide

/-- S14: glyph 0 and glyph F after load. -/
theorem test_font :
    (List.range 5).map (fun j => State.reset.byteAt (0x050 + j)) = [0xF0, 0x90, 0x90, 0x90, 0xF0] ∧
    (List.range 5).map (fun j => State.reset.byteAt (0x09B + j)) = [0xF0, 0x80, 0xF0, 0x80, 0x80] := by decide

/-- R64: status reads mode, err and tone. -/
theorem test_status :
    portAnswer .status (dead.setSt 0x01) dead =
      .report .halted (some ⟨.unknownOpcode, some 0x200, some 0x0123, .nothing⟩) true := by decide

/-- R300: the numbers of the fatal errors. -/
theorem test_error_codes :
    [ErrorKind.unknownOpcode, .stackOverflow, .stackUnderflow, .memoryOutOfBounds, .romTooLarge].map errorCode = [1, 2, 3, 4, 5] := by decide

/-! ### Witnesses: for each statement with hypotheses, a state and operands that meet them all -/

/-- EncodeOfDecode. -/
theorem witness_encode_of_decode : decodeWord 0x8124 = .ok (.addReg 1 2) := by decide

/-- DecodeFollowsTheOpcodeMap: the word 0x5120 is selected by the row of 5XY0 alone, 0x5121 by none. -/
theorem witness_decode_follows_the_map :
    decodeWord 0x5120 = .ok (.seReg 1 2) ∧ opcodeMap.filter (·.selects 0x5120) = [⟨0x5000, 0xF00F⟩] ∧
    opcodeMap.filter (·.selects 0x5121) = [] := by decide

/-- IllegalWordsAreTheSixFamilies: an illegal and a legal word of each family. -/
theorem witness_illegal_families :
    ([0x00EF, 0x512F, 0x812D, 0x912F, 0xE1A2, 0xF166] : List Word).all (fun op => !Word.legal op) = true ∧
    ([0x00EE, 0x5120, 0x812E, 0x9120, 0xE1A1, 0xF165] : List Word).all Word.legal = true := by decide

/-- StepRunsTheDecodedInstruction, at the last pc that fetches. -/
theorem witness_step_runs :
    let s := (State.reset.setPc 0xFFE).withFetchWord 16 0x6A3C
    s.mode = .running ∧ s.pc = 0xFFE ∧ s.pc.toNat + 1 ≤ 0xFFF ∧
    decodeWord (wordOfBytes (s.byteAt s.pc.toNat) (s.byteAt (s.pc.toNat + 1))) = .ok (.ldImm 0xA 0x3C) := by decide

/-- FetchAndDecodeErrorsHalt: the first pc that does not fetch, and an illegal word at the last that does. -/
theorem witness_fetch_and_decode_errors :
    ((State.reset.setPc 0xFFF).mode = .running ∧ (State.reset.setPc 0xFFF).pc.toNat + 1 > 0xFFF) ∧
    (let s := (State.reset.setPc 0xFFE).withFetchWord 16 0x00E1
     s.mode = .running ∧ s.pc.toNat + 1 ≤ 0xFFF ∧
     wordOfBytes (s.byteAt s.pc.toNat) (s.byteAt (s.pc.toNat + 1)) = 0x00E1 ∧ Word.legal 0x00E1 = false) := by decide

/-- HaltedUntilLoad, with a ROM of four bytes for its clause on load. -/
theorem witness_halted :
    dead.mode = .halted ∧ dead.err = some ⟨.unknownOpcode, some 0x200, some 0x0123, .nothing⟩ ∧ dead.params.wf = true ∧
    [(0x12 : Byte), 0x00, 0x00, 0x00].length ≤ 3584 ∧
    (ported (.load [0x12, 0x00]) dead).map (fun t => t.mode) = some .running := by decide

/-- A step of the word w at pc takes a running core to a halted one. -/
def halts (w : Nat) (s : State) : Bool :=
  decide ((s.withFetchWord 16 w).mode = .running) && decide ((after w s).map (fun t => t.mode) = some .halted)

/-- ErrorsComeOnlyFromTheirCauses: a running state for each cause, at its boundary. -/
theorem witness_errors :
    ((State.reset.setPc 0xFFF).mode = .running ∧
      (stepped (State.reset.setPc 0xFFF)).map (fun t => t.mode) = some .halted) ∧
    halts 0x00EF State.reset = true ∧ halts 0x2300 { State.reset with sp := 16 } = true ∧ halts 0x00EE State.reset = true ∧
    halts 0xD015 (State.reset.setI 0xFFC) = true ∧ halts 0xF033 (State.reset.setI 0xFFE) = true ∧
    halts 0xF155 (State.reset.setI 0xFFF) = true ∧ halts 0xFF65 (State.reset.setI 0xFF1) = true := by decide

/-- The clauses on leaving memory of DrawXorsTheSprite, BcdStoresThreeDigits, StoreRegistersCopiesToMemory and
LoadRegistersCopiesFromMemory: one byte too far, and not one byte earlier. -/
theorem witness_out_of_range :
    (let s := State.reset.setI 0xFFC
     0 < (5 : BitVec 4).toNat ∧ s.iReg.toNat + (5 : BitVec 4).toNat - 1 > 0xFFF) ∧
    (State.reset.setI 0xFFE).iReg.toNat + 2 > 0xFFF ∧ ¬ (State.reset.setI 0xFFD).iReg.toNat + 2 > 0xFFF ∧
    (State.reset.setI 0xFFF).iReg.toNat + (1 : RegIdx).val > 0xFFF ∧
    ¬ (State.reset.setI 0xFFF).iReg.toNat + (0 : RegIdx).val > 0xFFF ∧
    max (State.reset.setI 0xFFC).iReg.toNat 0x1000 = 0x1000 ∧ max (State.reset.setI 0x1005).iReg.toNat 0x1000 = 0x1005 := by
  decide

/-- LogicInstructionsCombineBits: each premise on LOGIC_VF_RESET, with x other than F and x = F. -/
theorem witness_logic :
    quirky.params.logicVfReset = true ∧ State.reset.params.logicVfReset = false ∧ (0 : RegIdx) ≠ regVF ∧
    ((15 : RegIdx) ≠ regVF ∨ State.reset.params.logicVfReset = false) ∧
    ¬ ((15 : RegIdx) ≠ regVF ∨ quirky.params.logicVfReset = false) := by decide

/-- AddRegistersSetsCarry and SubtractionsSetNotBorrow: X other than F, and a third register. -/
theorem witness_flag_writers : (0 : RegIdx) ≠ regVF ∧ (2 : RegIdx) ≠ 0 ∧ (2 : RegIdx) ≠ regVF := by decide

/-- ShiftsFollowShiftSrc: the source byte with each setting. -/
theorem witness_shifts :
    (let s := regs [(0, 0x05), (1, 0x80)] State.reset
     (0x80 : Byte) = if s.params.shiftSrc = .vy then s.getV 1 else s.getV 0) ∧
    (let s := regs [(0, 0x05), (1, 0x80)] quirky
     (0x05 : Byte) = if s.params.shiftSrc = .vy then s.getV 1 else s.getV 0) := by decide

/-- A state with the sprite byte 0xFF at 0xFFF and the display clear. -/
def drawState : State := (bytes 0xFFF [0xFF] State.reset).setI 0xFFF

/-- DrawXorsTheSprite: N = 0 with I at its top; one row at the top of memory; a sprite bit over a clear and over a lit pixel,
and a pixel outside the sprite. -/
theorem witness_draw :
    ((0 : BitVec 4).toNat = 0 ∧ (State.reset.setI 0xFFFF).iReg = 0xFFFF) ∧
    drawState.iReg.toNat + (1 : BitVec 4).toNat - 1 ≤ 0xFFF ∧
    SpriteBit drawState 0 1 1 0 7 ∧ Display.pixel drawState.disp 0 7 = false ∧ ¬ SpriteBit drawState 0 1 1 0 8 ∧
    ¬ SpriteBit drawState 0 1 1 1 0 ∧
    Display.pixel (drawState.setDisp ((Vector.replicate 32 0).set 0 0x80)).disp 0 7 = true := by
  simp only [SpriteBit]
  decide

/-- DrawXorsTheSprite and DrawTwiceRestoresTheDisplay: a blank sprite meets "every sprite pixel is off" and "every sprite
pixel is on" alike, and a lit one does not meet the first. -/
theorem witness_draw_blank :
    (∀ r c, SpriteBit (State.reset.setI 0x300) 0 1 0 r c → Display.pixel State.reset.disp r c = false) ∧
    (∀ r c, SpriteBit (State.reset.setI 0x300) 0 1 0 r c → Display.pixel State.reset.disp r c = true) := by
  constructor <;> (intro r c h; exact absurd h.1 (Nat.not_lt_zero _))

/-- DrawTwiceRestoresTheDisplay. -/
theorem witness_draw_twice :
    (0 : RegIdx) ≠ regVF ∧ (1 : RegIdx) ≠ regVF ∧ (∃ t, exec (.drw 0 1 1) drawState = .next t) ∧
    drawState.iReg.toNat + (1 : BitVec 4).toNat - 1 ≤ 0xFFF ∧
    (∃ r c, SpriteBit drawState 0 1 1 r c ∧ Display.pixel drawState.disp r c = false) := by
  refine ⟨by decide, by decide, ⟨_, rfl⟩, by decide, 0, 7, ?_⟩
  simp only [SpriteBit]
  decide

/-- Port operation op takes s to a state that is not halted and whose display differs. -/
def changesDisplay (op : PortOp) (s : State) : Bool :=
  match port op s with
  | .next t => decide (t.mode ≠ .halted ∧ t.disp ≠ s.disp)
  | _ => false

/-- OnlyClearDrawAndLoadWriteTheDisplay: each of the three writers. -/
theorem witness_display_writers :
    changesDisplay (.load []) (State.reset.setDisp (Vector.replicate 32 1)) = true ∧
    changesDisplay .step ((State.reset.setDisp (Vector.replicate 32 1)).withFetchWord 16 0x00E0) = true ∧
    changesDisplay .step (drawState.withFetchWord 16 0xD011) = true := by decide

/-- KeyWaitCompletesOrSuspends: key 0 the lowest, key 15 alone, KEY_PICK = ANY, no key, and PRESS_EDGE. -/
theorem witness_key_wait :
    (let s := pressKey 15 true (pressKey 0 true State.reset)
     s.params.keywaitTrigger = .level ∧ s.params.keyPick = .lowest ∧ s.isPressed 0 = true ∧
       ∀ j : KeyIdx, s.isPressed j = true → 0 ≤ j) ∧
    (let s := pressKey 15 true State.reset
     s.isPressed 15 = true ∧ ∀ j : KeyIdx, s.isPressed j = true → 15 ≤ j) ∧
    (let s := pressKey 15 true anyKey
     s.params.keywaitTrigger = .level ∧ s.params.keyPick = .any ∧ ∃ k, s.isPressed k = true) ∧
    (∀ k, State.reset.isPressed k = false) ∧ quirky.params.keywaitTrigger = .pressEdge := by decide

/-- The invariant, field by field, in a form `decide` evaluates. -/
theorem inv_of_checks {s : State} (h : s.MemoryCanonical ∧ (s.err ≠ none ↔ s.mode = .halted) ∧
    (s.mode ≠ .halted → s.sp.toNat ≤ 16) ∧ (s.params.keywaitTrigger = .level → s.keyEvent = none) ∧
    (s.mode = .running → s.keyEvent = none) ∧ ∀ x, s.mode = .awaitingKey x → fetch s = .ok (encode (.ldVxK x))) : s.Inv :=
  ⟨h.1, h.2.1, h.2.2.1, h.2.2.2.1, h.2.2.2.2.1, h.2.2.2.2.2⟩

/-- KeyWaitHolds: both ways to have no key to take, and KeyWaitResumes' clauses on them. -/
theorem witness_key_wait_holds :
    (waiting.Inv ∧ waiting.mode = .awaitingKey 3 ∧ waiting.params.keywaitTrigger = .level ∧
      ∀ k, waiting.isPressed k = false) ∧
    (waitingEdge.Inv ∧ waitingEdge.mode = .awaitingKey 3 ∧ waitingEdge.params.keywaitTrigger = .pressEdge ∧
      waitingEdge.keyEvent = none) := by
  refine ⟨⟨inv_of_checks ?_, by decide⟩, inv_of_checks ?_, by decide⟩ <;> (simp only [State.MemoryCanonical]; decide)

/-- KeyWaitResumes: LEVEL with each KEY_PICK, and PRESS_EDGE. -/
theorem witness_key_wait_resumes :
    (let s := pressKey 15 true waiting
     s.mode = .awaitingKey 3 ∧ s.params.keywaitTrigger = .level ∧ s.params.keyPick = .lowest ∧ s.isPressed 15 = true ∧
       ∀ j : KeyIdx, s.isPressed j = true → 15 ≤ j) ∧
    (let s := pressKey 0 true (anyKey.suspend 3)
     s.mode = .awaitingKey 3 ∧ s.params.keywaitTrigger = .level ∧ s.params.keyPick = .any ∧ ∃ k, s.isPressed k = true) ∧
    (let s := pressKey 15 true waitingEdge
     s.mode = .awaitingKey 3 ∧ s.params.keywaitTrigger = .pressEdge ∧ s.keyEvent = some 15) := by decide

/-- TickCountsTimersDown: running with both timers at their bounds, waiting, and halted. -/
theorem witness_tick :
    ((State.reset.setDt 0x00).setSt 0xFF).mode ≠ .halted ∧ waiting.mode ≠ .halted ∧ dead.mode = .halted := by decide

/-- SetKeyWritesTheLatch: a press that is recorded, and one that is not. -/
theorem witness_set_key :
    (waitingEdge.params.keywaitTrigger = .pressEdge ∧ (∃ x, waitingEdge.mode = .awaitingKey x) ∧
      waitingEdge.isPressed 15 = false ∧ waitingEdge.keyEvent = none) ∧
    ¬ (quirky.params.keywaitTrigger = .pressEdge ∧ (∃ x, quirky.mode = .awaitingKey x) ∧
      quirky.isPressed 0 = false ∧ quirky.keyEvent = none) := by
  refine ⟨⟨by decide, ⟨3, rfl⟩, by decide, by decide⟩, ?_⟩
  rintro ⟨-, ⟨x, h⟩, -⟩
  cases h

/-- SetKeyRejectsOtherKeys: the first key index on each side. -/
theorem witness_set_key_rejected : ((-1 : Int) < 0 ∨ (-1 : Int) > 15) ∧ ((16 : Int) < 0 ∨ (16 : Int) > 15) := by decide

/-- CallPushesTheNextAddress and CallThenReturnComesBack: the first and the last depth that fits, and the one that does not. -/
theorem witness_call :
    State.reset.sp.toNat < 16 ∧ ({ State.reset with sp := 15 } : State).sp.toNat < 16 ∧
    ({ State.reset with sp := 16 } : State).sp = 16 := by decide

/-- ReturnPopsTheAddress: the first and the last depth that returns, and the empty stack. -/
theorem witness_return :
    (0 < ({ State.reset with sp := 1 } : State).sp.toNat ∧ ({ State.reset with sp := 1 } : State).sp.toNat - 1 < 16) ∧
    (0 < ({ State.reset with sp := 16 } : State).sp.toNat ∧ ({ State.reset with sp := 16 } : State).sp.toNat - 1 < 16) ∧
    State.reset.sp = 0 := by decide

/-- StackPointerAboveSixteenStops. -/
theorem witness_stack_pointer_above_sixteen :
    16 < ({ State.reset with sp := 17 } : State).sp.toNat ∧ 16 < ({ State.reset with sp := 255 } : State).sp.toNat := by decide

/-- CallThenReturnComesBack: a callee that changed a register. -/
theorem witness_call_then_return :
    ∃ t u : State, ({ State.reset with sp := 15 } : State).sp.toNat < 16 ∧
      exec (.call 0x300) { State.reset with sp := 15 } = .next t ∧ u.getV 0 = 0x77 ∧ u.stack = t.stack ∧ u.sp = t.sp :=
  ⟨_, State.setV ({ State.reset with sp := 16, stack := State.reset.stack.set 15 0x202, pc := 0x300 }) 0 0x77,
    by decide, rfl, rfl, rfl, rfl⟩

/-- JumpsSetThePc: the first targets that cannot be fetched. -/
theorem witness_jump_targets :
    (exec (.jp 0xFFF) State.reset = .next (State.reset.setPc 0xFFF) ∧ (State.reset.setPc 0xFFF).pc.toNat ≥ 0xFFF) ∧
    (exec (.jpV0 0xFFE) (regs [(0, 0x01)] State.reset) = .next ((regs [(0, 0x01)] State.reset).setPc 0xFFF) ∧
      (State.reset.setPc 0xFFF).pc.toNat > 0xFFE) := ⟨⟨rfl, by decide⟩, rfl, by decide⟩

/-- SkipsReadNothingTheyPass: 3000 at 0xFFC, whose target cannot be fetched (95 part 2). -/
theorem witness_skip :
    (∃ x nn, (Instr.seImm 0 0x00) = .seImm x nn) ∧
    (after 0x3000 (State.reset.setPc 0xFFC)).map (fun t => t.pc) = some 0x1000 := ⟨⟨0, 0x00, rfl⟩, by decide⟩

/-- FontAddressPointsAtTheGlyph: the standard parameters, and the last row of a glyph. -/
theorem witness_font_address : Params.standard.wf = true ∧ 4 < 5 := by decide

/-- BcdStoresThreeDigits: the last I that fits. -/
theorem witness_bcd :
    (State.reset.setI 0xFFD).MemoryCanonical ∧ (State.reset.setI 0xFFD).iReg.toNat + 2 ≤ 0xFFF := by
  simp only [State.MemoryCanonical]
  decide

/-- StoreRegistersCopiesToMemory and LoadRegistersCopiesFromMemory: the last I that fits for X = 0 and for X = F. -/
theorem witness_block_transfer :
    (State.reset.setI 0xFFF).MemoryCanonical ∧ (State.reset.setI 0xFFF).iReg.toNat + (0 : RegIdx).val ≤ 0xFFF ∧
    (State.reset.setI 0xFF0).MemoryCanonical ∧ (State.reset.setI 0xFF0).iReg.toNat + (15 : RegIdx).val ≤ 0xFFF := by
  simp only [State.MemoryCanonical]
  decide

/-- StoreThenLoadRestoresRegisters: registers cleared in between, and I put back. -/
theorem witness_store_then_load :
    ∃ s t u : State, s.MemoryCanonical ∧ s.iReg.toNat + (1 : RegIdx).val ≤ 0xFFF ∧ exec (.stRegs 1) s = .next t ∧
      u.mem = t.mem ∧ u.params = t.params ∧ u.iReg = s.iReg ∧ u.getV 1 ≠ s.getV 1 :=
  ⟨(regs [(0, 0x11), (1, 0x22)] quirky).setI 0xFFE, _,
    { (bytes 0xFFE [0x11, 0x22] quirky).setI 0xFFE with dt := 0x01 },
    by simp only [State.MemoryCanonical]; decide, by decide, rfl, by decide, by decide, by decide, by decide⟩

/-- StoresAreSeenByTheNextFetch: the two bytes at the top of memory. -/
theorem witness_store_then_fetch :
    ∃ s t : State, s.MemoryCanonical ∧ s.iReg.toNat + (1 : RegIdx).val ≤ 0xFFF ∧ 1 ≤ (1 : RegIdx).val ∧
      exec (.stRegs 1) s = .next t :=
  ⟨(regs [(0, 0x12), (1, 0x34)] State.reset).setI 0xFFE, _, by simp only [State.MemoryCanonical]; decide, by decide,
    by decide, rfl⟩

/-- OnlyDestinationRegistersChange, OnlyStoresChangeMemory and SpecialRegistersChangeOnlyByTheirInstructions: an instruction
that goes on, and a register it does not write. -/
theorem witness_frames :
    ∃ t, exec (.addReg 0 1) State.reset = .next t ∧ t.mode ≠ .halted ∧ writesReg State.reset.params (.addReg 0 1) 1 = false ∧
      writesReg State.reset.params (.addReg 0 1) 15 = true ∧ (∀ x, (Instr.addReg 0 1) ≠ .ldB x) ∧
      (∀ x, (Instr.addReg 0 1) ≠ .stRegs x) :=
  ⟨_, rfl, by decide, by decide, by decide, by decide, by decide⟩

/-- LaunchParametersNeverChange: a sequence of three operations. -/
theorem witness_schedule : ∃ t, portRun [.tick, .setKey 5 true, .step] waiting = .next t := ⟨_, rfl⟩

/-- OnlySetKeyWritesTheLatch. -/
theorem witness_latch : ∃ t, port (.setKey 5 true) State.reset = .next t ∧ t.keys ≠ State.reset.keys :=
  ⟨_, rfl, by decide⟩

/-- LoadResetsTheCore: the empty ROM and the longest one. -/
theorem witness_load :
    State.reset.params.wf = true ∧ ([] : List Byte).length ≤ 3584 ∧ (List.replicate 3584 (0x12 : Byte)).length ≤ 3584 :=
  ⟨by decide, by decide, by rw [List.length_replicate]⟩

/-- LoadResetsTheCore: an address in the ROM, in the font and in neither. -/
theorem witness_load_addresses :
    (0x200 ≤ 0xFFF ∧ 0xFFF < 0x200 + (List.replicate 3584 (0x12 : Byte)).length) ∧
    (Params.standard.fontBase ≤ 0x9F ∧ 0x9F ≤ Params.standard.fontBase + 79) ∧
    ¬ (Params.standard.fontBase ≤ 0xA0 ∧ 0xA0 ≤ Params.standard.fontBase + 79) := by
  rw [List.length_replicate]
  decide

/-- LoadResetsTheCore's clause on an oversize ROM: one byte too many. -/
theorem witness_oversize_rom : State.reset.params.wf = true ∧ (List.replicate 3585 (0x12 : Byte)).length > 3584 :=
  ⟨by decide, by rw [List.length_replicate]; decide⟩

/-- ErrorRecordsHaveTheirFields: a step and a load that write a new record, with each kind of last field. -/
theorem witness_error_records :
    (ported .step (State.reset.setPc 0xFFF)).map (fun t => t.err.map (fun e => (e.addr, e.info))) =
      some (some (some 0x1000, .addr 0x1000)) ∧
    (ported .step (State.reset.withFetchWord 16 0x00EE)).map (fun t => t.err.map (fun e => (e.addr, e.info))) =
      some (some (none, .nothing)) ∧
    (ported (.load (List.replicate 3585 0x00)) dead).map (fun t => t.err.map (fun e => (e.addr, e.info))) =
      some (some (none, .romLength 3585)) := by
  refine ⟨by decide, by decide, ?_⟩
  simp only [ported, port, load, List.length_replicate]
  decide

/-- BadFontBaseIsRefused: the first font address that leaves memory. -/
theorem witness_bad_font_base :
    (State.launch { Params.standard with fontBase := 0xFB1 }).params.fontBase + 79 > 0xFFF := by decide

/-- StepKeepsTheInvariant, EveryHostScheduleKeepsTheInvariant and NoScheduleStopsTheModel: a state of each mode that meets the
invariant, the waiting one with a key event recorded. -/
theorem witness_invariant :
    ((State.reset.withFetchWord 16 0x6A3C).Inv ∧ (State.reset.withFetchWord 16 0x6A3C).params.wf = true) ∧
    (pressKey 9 true waitingEdge).Inv ∧ dead.Inv := by
  refine ⟨⟨inv_of_checks ?_, by decide⟩, inv_of_checks ?_, inv_of_checks ?_⟩ <;>
    (simp only [State.MemoryCanonical]; decide)

/-- A step from each of those states answers a next state. -/
theorem witness_invariant_steps :
    (∃ t, step (State.reset.withFetchWord 16 0x6A3C) = .next t) ∧ (∃ t, step (pressKey 9 true waitingEdge) = .next t) ∧
    (∃ t, step dead = .next t) := ⟨⟨_, rfl⟩, ⟨_, rfl⟩, ⟨_, rfl⟩⟩

end Sys2Proof.Tests
end

/-! What the decoder reads is what the encoder writes (30_encoding.md R104, R105): a word is rebuilt from its fields, format
by format. -/

namespace Sys2Proof

/-- The high nibble of a word as a number. -/
theorem high_toNat (op : Word) : (op.extractLsb' 12 4).toNat = op.toNat / 0x1000 := by
  rw [BitVec.extractLsb'_toNat, Nat.shiftRight_eq_div_pow]
  omega

/-- X of a word as a number. -/
theorem fieldX_val (op : Word) : (Word.fieldX op).val = op.toNat / 0x100 % 16 :=
  (BitVec.extractLsb'_toNat ..).trans (by rw [Nat.shiftRight_eq_div_pow])

/-- Y of a word as a number. -/
theorem fieldY_val (op : Word) : (Word.fieldY op).val = op.toNat / 0x10 % 16 :=
  (BitVec.extractLsb'_toNat ..).trans (by rw [Nat.shiftRight_eq_div_pow])

/-- N of a word as a number. -/
theorem fieldN_toNat (op : Word) : (Word.fieldN op).toNat = op.toNat % 16 :=
  BitVec.extractLsb'_toNat ..

/-- NN of a word as a number. -/
theorem fieldNN_toNat (op : Word) : (Word.fieldNN op).toNat = op.toNat % 0x100 :=
  BitVec.extractLsb'_toNat ..

/-- NNN of a word as a number. -/
theorem fieldNNN_toNat (op : Word) : (Word.fieldNNN op).toNat = op.toNat % 0x1000 :=
  BitVec.extractLsb'_toNat ..

/-- A word is the word in format `NNN` of its own fields. -/
theorem wordNNN_of_fields {op : Word} {hi : BitVec 4} (h : (op.extractLsb' 12 4).toNat = hi.toNat) :
    wordNNN hi (Word.fieldNNN op) = op := by
  rw [high_toNat] at h
  apply BitVec.eq_of_toNat_eq
  rw [wordNNN_toNat, fieldNNN_toNat]
  omega

/-- A word is the word in formats `XNN` and `XFF` of its own fields. -/
theorem wordXNN_of_fields {op : Word} {hi : BitVec 4} {nn : Byte} (h : (op.extractLsb' 12 4).toNat = hi.toNat)
    (hn : Word.fieldNN op = nn) : wordXNN hi (Word.fieldX op) nn = op := by
  rw [high_toNat] at h
  apply BitVec.eq_of_toNat_eq
  rw [wordXNN_toNat, ← hn, fieldX_val, fieldNN_toNat]
  omega

/-- A word is the word in format `XYN` of its own fields. -/
theorem wordXYN_of_fields {op : Word} {hi n : BitVec 4} (h : (op.extractLsb' 12 4).toNat = hi.toNat)
    (hn : (Word.fieldN op).toNat = n.toNat) : wordXYN hi (Word.fieldX op) (Word.fieldY op) n = op := by
  rw [high_toNat] at h
  rw [fieldN_toNat] at hn
  apply BitVec.eq_of_toNat_eq
  rw [wordXYN_toNat, fieldX_val, fieldY_val]
  omega

/-- The ALU family decodes a word to the instruction the word encodes. -/
theorem encode_of_decodeAlu {op : Word} {i : Instr} (hhi : (op.extractLsb' 12 4).toNat = 0x8) (h : decodeAlu op = .ok i) :
    encode i = op := by
  unfold decodeAlu at h
  split at h
  case h_10 => cases h
  all_goals
    next hn =>
    cases h
    exact wordXYN_of_fields hhi hn

/-- The 0xF family decodes a word to the instruction the word encodes. -/
theorem encode_of_decodeMisc {op : Word} {i : Instr} (hhi : (op.extractLsb' 12 4).toNat = 0xF) (h : decodeMisc op = .ok i) :
    encode i = op := by
  unfold decodeMisc at h
  repeat' split at h
  case isFalse => cases h
  all_goals
    cases h
    exact wordXNN_of_fields hhi ‹_›

/-- A word that decodes is the word of the instruction it decodes to. -/
theorem encode_of_decodeWord {op : Word} {i : Instr} (h : decodeWord op = .ok i) : encode i = op := by
  unfold decodeWord at h
  split at h
  -- 00E0 and 00EE
  case h_1 =>
    split at h
    · next he => cases h; exact he.symm
    · split at h
      · next he => cases h; exact he.symm
      · cases h
  -- format NNN: high nibbles 1, 2, A, B
  case h_2 hhi | h_3 hhi | h_11 hhi | h_12 hhi => cases h; exact wordNNN_of_fields hhi
  -- format XNN: high nibbles 3, 4, 6, 7, C
  case h_4 hhi | h_5 hhi | h_7 hhi | h_8 hhi | h_13 hhi => cases h; exact wordXNN_of_fields hhi rfl
  -- 5XY0 and 9XY0
  case h_6 hhi | h_10 hhi =>
    split at h
    · next hn => cases h; exact wordXYN_of_fields hhi (congrArg BitVec.toNat hn)
    · cases h
  -- 8XYN
  case h_9 hhi => exact encode_of_decodeAlu hhi h
  -- DXYN
  case h_14 hhi => cases h; exact wordXYN_of_fields hhi rfl
  -- EX9E and EXA1
  case h_15 hhi =>
    split at h
    · next hn => cases h; exact wordXNN_of_fields hhi hn
    · split at h
      · next hn => cases h; exact wordXNN_of_fields hhi hn
      · cases h
  -- FXNN: no other high nibble is left
  case h_16 =>
    have hlt := (op.extractLsb' 12 4).isLt
    simp only [imp_false] at *
    exact encode_of_decodeMisc (by omega) h

end Sys2Proof

/-! The invariant of the core under one step (10_state.md R34, R37, R43, R45). -/

namespace Sys2Proof.Machine

/-- The pick of a key changes nothing but the count of draws. -/
theorem State.anyPressed_state {s u : State} {k : KeyIdx} (h : s.anyPressed = some (k, u)) :
    ∃ n, u = { s with draws := n } := by
  obtain ⟨-, ⟨-, rfl, -⟩ | ⟨-, rfl⟩⟩ := State.anyPressed_cases h
  · exact ⟨u.draws, rfl⟩
  · exact ⟨s.draws + 1, rfl⟩

/-- A step of a waiting core changes nothing, or resumes, and may take a draw. -/
theorem awaitKey_next {x : RegIdx} {s t : State} (h : awaitKey x s = .next t) :
    t = s ∨ ∃ k n, t = { s.resume x k with draws := n } := by
  rcases awaitKey_cases x s with ⟨-, k, u, hu, e⟩ | ⟨-, -, e⟩ | ⟨-, k, -, e⟩ | ⟨-, -, e⟩ <;> (rw [e] at h; cases h)
  · obtain ⟨n, rfl⟩ := State.anyPressed_state hu
    exact .inr ⟨k, n, rfl⟩
  · exact .inl rfl
  · exact .inr ⟨k, s.draws, rfl⟩
  · exact .inl rfl

/-- A core that is not halted has no error record. -/
theorem State.Inv.err_eq_none {s : State} (h : s.Inv) (hm : s.mode ≠ .halted) : s.err = none := by
  simpa [hm] using h.record

/-- A core that halts with a record meets the invariant. -/
theorem State.Inv.halt {s : State} (h : s.Inv) (e : ErrorRecord) : (s.halt e).Inv where
  memory := h.memory
  record := by simp
  depth hm := absurd rfl hm
  levelEvent := h.levelEvent
  runningEvent hm := by cases hm
  waiting x hm := by cases hm

/-- A waiting core that resumes meets the invariant. -/
theorem State.Inv.resume {s : State} {x : RegIdx} (h : s.Inv) (hm : s.mode = .awaitingKey x) (k : KeyIdx) (n : Nat) :
    ({ s.resume x k with draws := n } : State).Inv where
  memory := h.memory
  record := by simp [h.err_eq_none (by simp [hm])]
  depth _ := h.depth (by simp [hm])
  levelEvent _ := rfl
  runningEvent _ := rfl
  waiting y hy := by cases hy

/-- A running core that suspends at an FX0A word meets the invariant. -/
theorem State.Inv.suspend {s : State} {x : RegIdx} (h : s.Inv) (hm : s.mode = .running)
    (hf : fetch s = .ok (encode (.ldVxK x))) : (s.suspend x).Inv where
  memory := h.memory
  record := by simp [h.err_eq_none (by simp [hm])]
  depth _ := h.depth (by simp [hm])
  levelEvent _ := rfl
  runningEvent hr := by cases hr
  waiting y hy := by cases hy; exact hf

/-- A running core that executes the instruction it fetched meets the invariant: the instruction halts the core, lets it run
on, or suspends it at the word fetched. -/
theorem State.Inv.exec {s t : State} {i : Instr} (h : s.Inv) (hm : s.mode = .running) (hf : fetch s = .ok (encode i))
    (he : Machine.exec i s = .next t) : t.Inv := by
  have hne : s.mode ≠ .halted := by simp [hm]
  have herr : s.err = none := h.err_eq_none hne
  have hev : s.keyEvent = none := h.runningEvent hm
  obtain ⟨hmem, -⟩ := exec_canonical he h.memory (h.depth hne)
  rcases exec_control he hm herr (h.depth hne) with ⟨hh, hr, hk⟩ | ⟨hh, hr, hk, hsp⟩ | ⟨x, rfl, rfl⟩
  · exact ⟨hmem, by simp [hh, hr], by simp [hh], fun _ => hk.trans hev, fun _ => hk.trans hev, by simp [hh]⟩
  · exact ⟨hmem, by simp [hh, hr], fun _ => hsp, fun _ => hk.trans hev, fun _ => hk.trans hev, by simp [hh]⟩
  · exact h.suspend hm hf

/-- Settles O54, by the ways a step can end: each of them keeps the invariant. -/
theorem stepKeepsTheInvariant : Obligations.StepKeepsTheInvariant := by
  unfold Obligations.StepKeepsTheInvariant
  intro s t h hstep
  rcases step_cases s with ⟨-, e⟩ | ⟨x, hm, e⟩ | ⟨-, a, -, e⟩ | ⟨-, op, er, -, -, e⟩ | ⟨hm, op, i, hf, hd, e⟩ <;>
    rw [e] at hstep
  · cases hstep; exact h
  · rcases awaitKey_next hstep with rfl | ⟨k, n, rfl⟩
    · exact h
    · exact h.resume hm k n
  · cases hstep; exact h.halt _
  · cases hstep; exact h.halt _
  · exact h.exec hm (by rw [encode_of_decodeWord hd, hf]) hstep

end Sys2Proof.Machine

/-! What an instruction leaves unchanged, said once over all 34 (10_state.md R30–R46). -/

namespace Sys2Proof.Machine

/-- The frame of instruction i between s and t: each part of the state is as before, or i is one of the instructions that
write it. Memory, pc, the display and the count of draws are not in it. -/
structure ExecFrame (i : Instr) (s t : State) : Prop where
  /-- Each register but the destination and a written flag (R30, R31). -/
  regs : ∀ k, writesReg s.params i k = false → t.getV k = s.getV k
  /-- SP (R37). -/
  sp : t.sp = s.sp ∨ i = .ret ∨ ∃ nnn, i = .call nnn
  /-- The call stack (R38). -/
  stack : t.stack = s.stack ∨ ∃ nnn, i = .call nnn
  /-- DT (R39). -/
  dt : t.dt = s.dt ∨ ∃ x, i = .ldDtVx x
  /-- ST (R40). -/
  st : t.st = s.st ∨ ∃ x, i = .ldStVx x
  /-- I (R33). -/
  iReg : t.iReg = s.iReg ∨ (∃ nnn, i = .ldI nnn) ∨ (∃ x, i = .addI x) ∨ (∃ x, i = .ldF x) ∨
    (s.params.indexIncrement = true ∧ ∃ x, i = .stRegs x ∨ i = .ldRegs x)
  /-- The mode (R42). -/
  mode : t.mode = s.mode ∨ ∃ x, i = .ldVxK x
  /-- The latch (R44). -/
  keys : t.keys = s.keys
  /-- The launch parameters (R46). -/
  params : t.params = s.params

/-- The frame holds when nothing it speaks of changed but registers that i writes. -/
theorem ExecFrame.of_update {i : Instr} {s t : State} {v : Vector Byte 16} {pc : Word} {mem : Memory} {disp : Display}
    {draws : Nat} (hv : ∀ k, writesReg s.params i k = false → t.getV k = s.getV k)
    (h : t = { s with v := v, pc := pc, mem := mem, disp := disp, draws := draws }) : ExecFrame i s t := by
  subst h
  exact ⟨hv, .inl rfl, .inl rfl, .inl rfl, .inl rfl, .inl rfl, .inl rfl, rfl, rfl⟩

/-- The frame holds when nothing it speaks of changed but registers that i writes, and I where i may write it. -/
theorem ExecFrame.of_index {i : Instr} {s t : State} {v : Vector Byte 16} {pc iReg : Word} {mem : Memory}
    (hv : ∀ k, writesReg s.params i k = false → t.getV k = s.getV k)
    (h : t = { s with v := v, pc := pc, mem := mem, iReg := iReg })
    (hi : iReg = s.iReg ∨ (∃ nnn, i = .ldI nnn) ∨ (∃ x, i = .addI x) ∨ (∃ x, i = .ldF x) ∨
      (s.params.indexIncrement = true ∧ ∃ x, i = .stRegs x ∨ i = .ldRegs x)) : ExecFrame i s t := by
  subst h
  exact ⟨hv, .inl rfl, .inl rfl, .inl rfl, .inl rfl, hi, .inl rfl, rfl, rfl⟩

/-- A register other than the one written reads as before. -/
theorem State.setV_getV_other {s : State} {x k : RegIdx} {b : Byte} (h : (k == x) = false) :
    (s.setV x b).getV k = s.getV k := by
  rw [State.setV_getV, if_neg (by simpa using h)]

/-- A register that is neither the destination nor VF reads as before. -/
theorem State.setResultFlag_getV_other {s : State} {x k : RegIdx} {r f : Byte} (h : (k == x || k == regVF) = false) :
    (s.setResultFlag x r f).getV k = s.getV k := by
  obtain ⟨hx, hf⟩ : k ≠ x ∧ k ≠ regVF := by simpa using h
  rw [State.setResultFlag_getV, if_neg hf, if_neg hx]

/-- A register that is neither the destination of a logic instruction nor a VF it resets reads as before. -/
theorem State.setLogicResult_getV_other {s : State} {x k : RegIdx} {r : Byte}
    (h : (k == x || (s.params.logicVfReset && k == regVF)) = false) : (s.setLogicResult x r).getV k = s.getV k := by
  obtain ⟨hx, hf⟩ : k ≠ x ∧ ¬ (s.params.logicVfReset = true ∧ k = regVF) := by simpa using h
  rw [State.setLogicResult_getV, if_neg hf, if_neg hx]

/-- A logic result changes registers alone. -/
theorem State.setLogicResult_eq (s : State) (x : RegIdx) (r : Byte) :
    s.setLogicResult x r = { s with v := (s.setLogicResult x r).v } := by
  unfold State.setLogicResult
  split <;> rfl

/-- A skip changes pc alone. -/
theorem State.skipIf_eq (s : State) (c : Bool) : s.skipIf c = { s with pc := (s.skipIf c).pc } := by
  cases c <;> rfl

/-- A register beyond the bytes loaded reads as before. -/
theorem State.loadRegs_getV_other {s : State} {bs : List Byte} {k : RegIdx} (h : bs.length ≤ k.val) :
    (s.loadRegs bs).getV k = s.getV k := by
  rw [State.loadRegs_getV, List.getD_eq_default _ _ h]

/-- A block transfer moves I only with INDEX_INCREMENT. -/
theorem State.indexAfter_cases (s : State) (x : RegIdx) : s.indexAfter x = s.iReg ∨ s.params.indexIncrement = true := by
  unfold State.indexAfter
  split
  · next h => exact .inr h
  · exact .inl rfl

/-- Every next state of 00EE: underflow, or a pop, whatever SP is. -/
theorem execRet_next {s t : State} (h : execRet s = .next t) :
    (∃ e, t = s.halt e) ∨ ∃ sp pc, t = { s with sp := sp, pc := pc } := by
  unfold execRet at h
  split at h
  · cases h; exact .inl ⟨_, rfl⟩
  · split at h
    · next u hu => unfold State.popPc at hu; split at hu <;> cases hu; cases h; exact .inr ⟨_, _, rfl⟩
    · cases h

/-- Every next state of 2NNN: overflow, or a push and a jump, whatever SP is. -/
theorem execCall_next {s t : State} {nnn : Addr12} (h : execCall nnn s = .next t) :
    (∃ e, t = s.halt e) ∨ ∃ stack sp pc, t = { s with stack := stack, sp := sp, pc := pc } := by
  unfold execCall at h
  split at h
  · cases h; exact .inl ⟨_, rfl⟩
  · split at h
    · next u hu => unfold State.push at hu; split at hu <;> cases hu; cases h; exact .inr ⟨_, _, _, rfl⟩
    · cases h

/-- Every instruction halts the core, which changes nothing but the record and the mode, or keeps its frame. -/
theorem exec_frame {i : Instr} {s t : State} (h : exec i s = .next t) : (∃ e, t = s.halt e) ∨ ExecFrame i s t := by
  cases i
  case cls | jp | jpV0 => cases h; exact .inr (.of_update (fun _ _ => rfl) rfl)
  case seImm | sneImm | seReg | sneReg | skp | sknp =>
    cases h; exact .inr (.of_update (fun k _ => State.skipIf_getV s _ k) (State.skipIf_eq s _))
  case ldImm | addImm | ldReg | rnd | ldVxDt =>
    cases h; exact .inr (.of_update (fun _ hk => State.setV_getV_other hk) rfl)
  case orReg | andReg | xorReg =>
    cases h; exact .inr (.of_update (fun _ hk => State.setLogicResult_getV_other hk) (State.setLogicResult_eq s.advance _ _))
  case addReg | subReg | shr | subn | shl =>
    cases h; exact .inr (.of_update (fun _ hk => State.setResultFlag_getV_other hk) rfl)
  case ret =>
    rcases execRet_next h with ⟨e, rfl⟩ | ⟨_, _, rfl⟩
    · exact .inl ⟨e, rfl⟩
    · exact .inr ⟨fun _ _ => rfl, .inr (.inl rfl), .inl rfl, .inl rfl, .inl rfl, .inl rfl, .inl rfl, rfl, rfl⟩
  case call nnn =>
    rcases execCall_next h with ⟨e, rfl⟩ | ⟨_, _, _, rfl⟩
    · exact .inl ⟨e, rfl⟩
    · exact .inr ⟨fun _ _ => rfl, .inr (.inr ⟨nnn, rfl⟩), .inr ⟨nnn, rfl⟩, .inl rfl, .inl rfl, .inl rfl, .inl rfl, rfl, rfl⟩
  case ldDtVx x =>
    cases h
    exact .inr ⟨fun _ _ => rfl, .inl rfl, .inl rfl, .inr ⟨x, rfl⟩, .inl rfl, .inl rfl, .inl rfl, rfl, rfl⟩
  case ldStVx x =>
    cases h
    exact .inr ⟨fun _ _ => rfl, .inl rfl, .inl rfl, .inl rfl, .inr ⟨x, rfl⟩, .inl rfl, .inl rfl, rfl, rfl⟩
  case ldI nnn => cases h; exact .inr (.of_index (fun _ _ => rfl) rfl (.inr (.inl ⟨nnn, rfl⟩)))
  case addI x => cases h; exact .inr (.of_index (fun _ _ => rfl) rfl (.inr (.inr (.inl ⟨x, rfl⟩))))
  case ldF x => cases h; exact .inr (.of_index (fun _ _ => rfl) rfl (.inr (.inr (.inr (.inl ⟨x, rfl⟩)))))
  case drw x y n =>
    rcases execDrw_cases s x y n with ⟨-, -, e⟩ | ⟨-, _, _, e⟩ <;> (rw [exec, e] at h; cases h)
    · exact .inl ⟨_, rfl⟩
    · exact .inr (.of_update (fun _ hk => State.setV_getV_other hk) rfl)
  case ldB x =>
    rcases execLdB_cases s x with ⟨-, e⟩ | ⟨-, _, -, e⟩ <;> (rw [exec, e] at h; cases h)
    · exact .inl ⟨_, rfl⟩
    · exact .inr (.of_update (fun _ _ => rfl) rfl)
  case stRegs x =>
    rcases execStRegs_cases s x with ⟨-, e⟩ | ⟨-, _, -, e⟩ <;> (rw [exec, e] at h; cases h)
    · exact .inl ⟨_, rfl⟩
    · refine .inr (.of_index (fun _ _ => rfl) rfl ?_)
      exact (s.indexAfter_cases x).imp_right fun hp => .inr (.inr (.inr ⟨hp, x, .inl rfl⟩))
  case ldRegs x =>
    rcases execLdRegs_cases s x with ⟨-, e⟩ | ⟨-, e⟩ <;> (rw [exec, e] at h; cases h)
    · exact .inl ⟨_, rfl⟩
    · refine .inr (.of_index (fun k hk => State.loadRegs_getV_other (s := s.advance) ?_) rfl ?_)
      · have hlt : ¬ k.val ≤ x.val := of_decide_eq_false hk
        simp only [List.length_map, List.length_range']
        omega
      · exact (s.indexAfter_cases x).imp_right fun hp => .inr (.inr (.inr ⟨hp, x, .inr rfl⟩))
  case ldVxK x =>
    rcases execLdVxK_cases x s with ⟨-, k, u, hu, e⟩ | ⟨-, e⟩ <;> (rw [exec, e] at h; cases h)
    · obtain ⟨n, rfl⟩ := State.anyPressed_state hu
      exact .inr (.of_update (fun _ hk => State.setV_getV_other hk) rfl)
    · exact .inr ⟨fun _ _ => rfl, .inl rfl, .inl rfl, .inl rfl, .inl rfl, .inl rfl, .inr ⟨x, rfl⟩, rfl, rfl⟩

/-- An instruction that does not halt the core keeps its frame. -/
theorem exec_frame_of_not_halted {i : Instr} {s t : State} (h : exec i s = .next t) (hm : t.mode ≠ .halted) :
    ExecFrame i s t := by
  rcases exec_frame h with ⟨e, rfl⟩ | hf
  · exact absurd rfl hm
  · exact hf

/-- Settles O44, by the frame of the instruction. -/
theorem onlyDestinationRegistersChange : Obligations.OnlyDestinationRegistersChange := by
  unfold Obligations.OnlyDestinationRegistersChange
  intro i s t k h hm hk
  exact (exec_frame_of_not_halted h hm).regs k hk

/-- Settles O46, by the frame of the instruction. -/
theorem specialRegistersChangeOnlyByTheirInstructions : Obligations.SpecialRegistersChangeOnlyByTheirInstructions := by
  unfold Obligations.SpecialRegistersChangeOnlyByTheirInstructions
  intro i s t h hm
  have hf := exec_frame_of_not_halted h hm
  exact ⟨hf.sp, hf.stack, hf.dt, hf.st, hf.iReg, hf.keys, hf.mode⟩

/-- No step changes the launch parameters or the latch, not even one that halts the core. -/
theorem step_params_keys {s t : State} (h : step s = .next t) : t.params = s.params ∧ t.keys = s.keys := by
  rcases step_cases s with ⟨-, e⟩ | ⟨x, -, e⟩ | ⟨-, a, -, e⟩ | ⟨-, op, er, -, -, e⟩ | ⟨-, op, i, -, -, e⟩ <;> rw [e] at h
  · cases h; exact ⟨rfl, rfl⟩
  · rcases awaitKey_next h with rfl | ⟨k, n, rfl⟩ <;> exact ⟨rfl, rfl⟩
  · cases h; exact ⟨rfl, rfl⟩
  · cases h; exact ⟨rfl, rfl⟩
  · rcases exec_frame h with ⟨_, rfl⟩ | hf
    · exact ⟨rfl, rfl⟩
    · exact ⟨hf.params, hf.keys⟩

/-- No load changes the launch parameters or the latch (10_state.md R44, R46). -/
theorem load_params_keys {rom : List Byte} {s t : State} (h : load rom s = .next t) :
    t.params = s.params ∧ t.keys = s.keys := by
  rcases load_cases rom s with ⟨-, e⟩ | ⟨-, -, e⟩ | ⟨-, -, m, -, e⟩ <;> rw [e] at h <;> cases h <;> exact ⟨rfl, rfl⟩

/-- A tick touches the timers alone. -/
theorem tick_eq (s : State) : tick s = { s with dt := (tick s).dt, st := (tick s).st } := by
  unfold tick
  split <;> rfl

/-- set_key touches the latch and key_event alone. -/
theorem setKey_eq (k : Int) (pressed : Bool) (s : State) :
    (setKey k pressed s).1 = { s with keys := (setKey k pressed s).1.keys, keyEvent := (setKey k pressed s).1.keyEvent } := by
  unfold setKey
  split <;> rfl

/-- One port operation keeps the launch parameters. -/
theorem port_params {op : PortOp} {s t : State} (h : port op s = .next t) : t.params = s.params := by
  cases op with
  | load rom => exact (load_params_keys h).1
  | step => exact (step_params_keys h).1
  | tick => cases h; rw [tick_eq]
  | setKey k pressed => cases h; rw [setKey_eq]
  | display => cases h; rfl
  | status => cases h; rfl

/-- Settles O47, by induction on the list of port operations. -/
theorem launchParametersNeverChange : Obligations.LaunchParametersNeverChange := by
  unfold Obligations.LaunchParametersNeverChange
  intro ops
  induction ops with
  | nil => intro s t h; cases h; rfl
  | cons op ops ih =>
    intro s t h
    unfold portRun at h
    split at h
    · next u hu => exact (ih u t h).trans (port_params hu)
    · cases h
    · cases h

/-- Settles O48, by the port: each but set_key keeps the latch. -/
theorem onlySetKeyWritesTheLatch : Obligations.OnlySetKeyWritesTheLatch := by
  unfold Obligations.OnlySetKeyWritesTheLatch
  intro op s t h hk
  cases op with
  | load rom => exact absurd (load_params_keys h).2 hk
  | step => exact absurd (step_params_keys h).2 hk
  | tick => cases h; exact absurd (by rw [tick_eq]) hk
  | setKey k pressed => exact ⟨k, pressed, rfl⟩
  | display => cases h; exact absurd rfl hk
  | status => cases h; exact absurd rfl hk

end Sys2Proof.Machine

/-! The error record, and what needs no frame (10_state.md R37, R45, R62–R64; 60_exceptions.md R300). -/

namespace Sys2Proof.Machine

/-- The fields of the record of an error that a step raised from state s: fault_pc, the word fetched, and an address above
0xFFF exactly for MemoryOutOfBounds (10_state.md R45). -/
structure StepRecord (s : State) (e : ErrorRecord) : Prop where
  /-- RomTooLarge is no step's error. -/
  kind : e.kind ≠ .romTooLarge
  /-- fault_pc. -/
  faultPc : e.faultPc = some s.pc
  /-- opcode after a fetch. -/
  fetched : ∀ w, fetch s = .ok w → e.opcode = some w
  /-- opcode and addr when the fetch faulted. -/
  unfetched : ∀ a, fetch s = .error a → e.opcode = none ∧ e.addr = some a
  /-- addr of MemoryOutOfBounds. -/
  outOfBounds : e.kind = .memoryOutOfBounds → ∃ a, e.addr = some a ∧ a > 0xFFF
  /-- No addr of any other kind. -/
  noAddr : e.kind ≠ .memoryOutOfBounds → e.addr = none ∧ e.info = .nothing

/-- A fetch names an address out of range. -/
theorem fetch_error_addr {s : State} {a : Nat} (h : fetch s = .error a) : a > 0xFFF := by
  by_cases hb : s.pc.toNat + 1 ≤ 0xFFF
  · rw [fetch_ok s hb] at h; cases h
  · rw [fetch_error s (by omega)] at h
    cases h
    omega

/-- The record of a fetch out of range. -/
theorem StepRecord.of_fetch {s : State} {a : Nat} (hf : fetch s = .error a) :
    StepRecord s ⟨.memoryOutOfBounds, some s.pc, none, .addr a⟩ where
  kind := by simp
  faultPc := rfl
  fetched w hw := by rw [hf] at hw; cases hw
  unfetched b hb := by rw [hf] at hb; cases hb; exact ⟨rfl, rfl⟩
  outOfBounds _ := ⟨a, rfl, fetch_error_addr hf⟩
  noAddr h := absurd rfl h

/-- The record of a data access out of range by the fetched word. -/
theorem StepRecord.of_access {s : State} {w : Word} {a : Nat} (hf : fetch s = .ok w) (ha : a > 0xFFF) :
    StepRecord s ⟨.memoryOutOfBounds, some s.pc, some w, .addr a⟩ where
  kind := by simp
  faultPc := rfl
  fetched w' hw := by rw [hf] at hw; cases hw; rfl
  unfetched b hb := by rw [hf] at hb; cases hb
  outOfBounds _ := ⟨a, rfl, ha⟩
  noAddr h := absurd rfl h

/-- The record of an error of the fetched word that names no address. -/
theorem StepRecord.of_word {s : State} {w : Word} {kind : ErrorKind} (hf : fetch s = .ok w)
    (hm : kind ≠ .memoryOutOfBounds) (hr : kind ≠ .romTooLarge) : StepRecord s ⟨kind, some s.pc, some w, .nothing⟩ where
  kind := hr
  faultPc := rfl
  fetched w' hw := by rw [hf] at hw; cases hw; rfl
  unfetched b hb := by rw [hf] at hb; cases hb
  outOfBounds h := absurd h hm
  noAddr _ := ⟨rfl, rfl⟩

/-- An instruction leaves the error record alone, or halts the core with a record of the word fetched. -/
theorem exec_record {i : Instr} {s t : State} (hf : fetch s = .ok (encode i)) (h : exec i s = .next t) :
    t.err = s.err ∨ ∃ e, t = s.halt e ∧ StepRecord s e := by
  rcases exec_err h with he | ⟨-, -, rfl⟩ | ⟨-, -, rfl⟩ | ⟨_, -, -, -, rfl⟩
  · exact .inl he
  · exact .inr ⟨_, rfl, .of_word hf (by decide) (by decide)⟩
  · exact .inr ⟨_, rfl, .of_word hf (by decide) (by decide)⟩
  · exact .inr ⟨_, rfl, .of_access hf (by omega)⟩

/-- A step leaves the error record alone, or halts the core with a record of its own. -/
theorem step_record {s t : State} (h : step s = .next t) : t.err = s.err ∨ ∃ e, t = s.halt e ∧ StepRecord s e := by
  rcases step_cases s with ⟨-, e⟩ | ⟨x, -, e⟩ | ⟨-, a, hf, e⟩ | ⟨-, op, er, hf, -, e⟩ | ⟨-, op, i, hf, hd, e⟩ <;>
    rw [e] at h
  · cases h; exact .inl rfl
  · rcases awaitKey_next h with rfl | ⟨k, n, rfl⟩ <;> exact .inl rfl
  · cases h; exact .inr ⟨_, rfl, .of_fetch hf⟩
  · cases h; exact .inr ⟨_, rfl, .of_word hf (by decide) (by decide)⟩
  · exact exec_record (by rw [encode_of_decodeWord hd, hf]) h

/-- Settles O57, by the port: only a step and an oversize load write a record. -/
theorem errorRecordsHaveTheirFields : Obligations.ErrorRecordsHaveTheirFields := by
  unfold Obligations.ErrorRecordsHaveTheirFields
  intro op s t e h he hnew
  cases op with
  | step =>
    rcases step_record h with hs | ⟨e', rfl, hr⟩
    · exact absurd (hs.symm.trans he) hnew
    · cases he
      exact ⟨rfl, .inl ⟨rfl, hr.kind, hr.faultPc, hr.fetched, hr.unfetched, hr.outOfBounds, hr.noAddr⟩⟩
  | load rom =>
    rcases load_cases rom s with ⟨-, el⟩ | ⟨-, -, el⟩ | ⟨-, -, m, -, el⟩ <;> rw [port, el] at h
    · cases h
    · cases h; cases he; exact ⟨rfl, .inr ⟨rom, rfl, rfl, rfl, rfl, rfl, rfl⟩⟩
    · cases h; cases he
  | tick => cases h; rw [tick_eq] at he; exact absurd he hnew
  | setKey k pressed => cases h; rw [setKey_eq] at he; exact absurd he hnew
  | display => cases h; exact absurd he hnew
  | status => cases h; exact absurd he hnew

/-- Settles O33: above 16 there is no entry to push to, and none to pop. -/
theorem stackPointerAboveSixteenStops : Obligations.StackPointerAboveSixteenStops := by
  unfold Obligations.StackPointerAboveSixteenStops
  intro s nnn h
  have h16 : ¬ s.sp = 16 := fun e => by rw [e] at h; exact absurd h (by decide)
  have h0 : ¬ s.sp = 0 := fun e => by rw [e] at h; exact absurd h (by decide)
  have hpop : 16 ≤ (s.sp - 1).toNat := by rw [BitVec.toNat_sub]; simp; omega
  constructor
  · rw [exec, execCall, if_neg h16, State.push_none s _ h.le]
  · rw [exec, execRet, if_neg h0, State.popPc_none s hpop]

/-- The tone output is on exactly when ST is not 0 (10_state.md R63). -/
theorem State.tone_eq (s : State) : s.tone = decide (s.st.toNat ≠ 0) := by
  rw [State.tone, Bool.eq_iff_iff, bne_iff_ne, decide_eq_true_iff, not_iff_not]
  exact BitVec.toNat_inj.symm

/-- Settles O49: the read ports are the state's own fields, and the tone is ST ≠ 0. -/
theorem readPortsOnlyRead : Obligations.ReadPortsOnlyRead := by
  unfold Obligations.ReadPortsOnlyRead
  intro s
  refine ⟨rfl, rfl, rfl, ?_⟩
  rw [← State.tone_eq]
  rfl

end Sys2Proof.Machine

/-! Memory: what FX55 stores and the next fetch reads, and what no other instruction but FX33 changes (20_memory.md R70, R74,
R83; 70_reset_and_hazards.md R342). -/

namespace Sys2Proof.Machine

/-- FX55 inside memory: the bytes from I on are V0..VX, and each other address reads as before (44_memory_ops.md R270). -/
theorem exec_stRegs_byteAt {s t : State} {x : RegIdx} (hm : s.MemoryCanonical) (hb : s.iReg.toNat + x.val ≤ 0xFFF)
    (h : exec (.stRegs x) s = .next t) (a : Nat) :
    t.byteAt a =
      if s.iReg.toNat ≤ a ∧ a < s.iReg.toNat + (x.val + 1) then (s.regsUpTo x).getD (a - s.iReg.toNat) 0x00
      else s.byteAt a := by
  have hlen := State.regsUpTo_length s x
  obtain ⟨m, hw, -, hread⟩ := writeBytes_ok (base := s.iReg.toNat) (bs := s.regsUpTo x) hm (.inr (by omega))
  rw [exec, execStRegs, hw] at h
  cases h
  exact hlen ▸ hread a

/-- FX55 inside memory stores Vk at I + k. -/
theorem exec_stRegs_stored {s t : State} {x : RegIdx} (hm : s.MemoryCanonical) (hb : s.iReg.toNat + x.val ≤ 0xFFF)
    (h : exec (.stRegs x) s = .next t) {k : RegIdx} (hk : k ≤ x) : t.byteAt (s.iReg.toNat + k.val) = s.getV k := by
  have hkx : k.val ≤ x.val := hk
  rw [exec_stRegs_byteAt hm hb h, if_pos (by omega), Nat.add_sub_cancel_left, State.regsUpTo_getD s x k hk]

/-- Settles O43: the fetch at I reads the two bytes that hold V0 and V1. -/
theorem storesAreSeenByTheNextFetch : Obligations.StoresAreSeenByTheNextFetch := by
  unfold Obligations.StoresAreSeenByTheNextFetch
  intro s t x hm hb hx h
  have h0 : t.byteAt s.iReg.toNat = s.getV 0 := exec_stRegs_stored hm hb h (Fin.zero_le x)
  have h1 : t.byteAt (s.iReg.toNat + 1) = s.getV 1 := exec_stRegs_stored hm hb h (k := 1) hx
  have hf := fetch_ok { t with pc := s.iReg } (show s.iReg.toNat + 1 ≤ 0xFFF by omega)
  rw [← h0, ← h1]
  exact hf

/-- An instruction other than FX33 and FX55 leaves the memory as it is, and so does one that halts the core. -/
theorem exec_mem {i : Instr} {s t : State} (h : exec i s = .next t) (hB : ∀ x, i ≠ .ldB x) (hR : ∀ x, i ≠ .stRegs x) :
    t.mem = s.mem := by
  cases i
  case ldB x => exact absurd rfl (hB x)
  case stRegs x => exact absurd rfl (hR x)
  case ret => rcases execRet_next h with ⟨_, rfl⟩ | ⟨_, _, rfl⟩ <;> rfl
  case call => rcases execCall_next h with ⟨_, rfl⟩ | ⟨_, _, _, rfl⟩ <;> rfl
  case drw x y n => rcases execDrw_cases s x y n with ⟨-, -, e⟩ | ⟨-, _, _, e⟩ <;> (rw [exec, e] at h; cases h; rfl)
  case ldRegs x => rcases execLdRegs_cases s x with ⟨-, e⟩ | ⟨-, e⟩ <;> (rw [exec, e] at h; cases h; rfl)
  case ldVxK x =>
    rcases execLdVxK_cases x s with ⟨-, k, u, hu, e⟩ | ⟨-, e⟩ <;> (rw [exec, e] at h; cases h)
    · obtain ⟨n, rfl⟩ := State.anyPressed_state hu
      rfl
    · rfl
  case orReg | andReg | xorReg => cases h; exact State.setLogicResult_mem ..
  case seImm | sneImm | seReg | sneReg | skp | sknp => cases h; exact State.skipIf_mem ..
  all_goals cases h; rfl

/-- No instruction changes the launch parameters, halting or not. -/
theorem exec_params {i : Instr} {s t : State} (h : exec i s = .next t) : t.params = s.params := by
  rcases exec_frame h with ⟨_, rfl⟩ | hf
  · rfl
  · exact hf.params

/-- Settles O45: each address reads by the memory and the launch parameters, and neither changes. -/
theorem onlyStoresChangeMemory : Obligations.OnlyStoresChangeMemory := by
  unfold Obligations.OnlyStoresChangeMemory
  intro i s t h _ hB hR a
  rw [State.byteAt, exec_mem h hB hR, exec_params h, ← State.byteAt]

end Sys2Proof.Machine

/-! The decoder against the encoder and the opcode map (30_encoding.md R104–R106). -/

namespace Sys2Proof

/-- The 8 family of a word in format `XYN` goes to its function code. -/
theorem decodeWord_alu (x y : RegIdx) (n : BitVec 4) : decodeWord (wordXYN 0x8 x y n) = decodeAlu (wordXYN 0x8 x y n) := by
  simp [decodeWord]

/-- The F family of a word in format `XFF` goes to its function byte. -/
theorem decodeWord_misc (x : RegIdx) (nn : Byte) : decodeWord (wordXNN 0xF x nn) = decodeMisc (wordXNN 0xF x nn) := by
  simp [decodeWord]

/-- The decoder reads back what the encoder writes: the high nibble chooses the family, the family's function code or byte
the instruction, and the fields are the operands. -/
theorem decodeWord_encode (i : Instr) : decodeWord (encode i) = .ok i := by
  cases i
  case cls | ret => rfl
  case ldReg | orReg | andReg | xorReg | addReg | subReg | shr | subn | shl =>
    rw [encode, decodeWord_alu]
    simp [decodeAlu]
  case ldVxDt | ldVxK | ldDtVx | ldStVx | addI | ldF | ldB | stRegs | ldRegs =>
    rw [encode, decodeWord_misc]
    simp [decodeMisc]
  -- the families that the decoder settles itself
  all_goals simp [encode, decodeWord]

/-- The decoder on bytes reads the word of the first two and leaves the others. -/
theorem decode_bytes {op : Word} {i : Instr} (h : decodeWord op = .ok i) (rest : List Byte) :
    decode (Word.hiByte op :: Word.loByte op :: rest) = .ok (i, rest) := by
  rw [decode, Machine.wordOfBytes_bytes, h]

/-- Settles O1: the word decodes to its instruction, and its two bytes in memory order are that word. -/
theorem decodeOfEncode : Obligations.DecodeOfEncode := by
  unfold Obligations.DecodeOfEncode
  exact fun i rest => ⟨decodeWord_encode i, decode_bytes (decodeWord_encode i) rest⟩

/-- Settles O2: a word that decodes is rebuilt from its fields. -/
theorem encodeOfDecode : Obligations.EncodeOfDecode := by
  unfold Obligations.EncodeOfDecode
  exact fun _ _ => encode_of_decodeWord

/-! The rows of the opcode map and the words they select (30_encoding.md R105). -/

/-- A selected word has the row's fixed bits in each field that the mask covers. -/
theorem field_of_selected {op : Word} {r : OpRow} {start k : Nat} (h : op &&& r.mask = r.fixed)
    (hm : r.mask.extractLsb' start k = BitVec.allOnes k) : op.extractLsb' start k = r.fixed.extractLsb' start k := by
  rw [← h, BitVec.extractLsb'_and, hm, BitVec.and_allOnes]

/-- The mask of a row without operands keeps the whole word. -/
theorem and_maskFFFF (op : Word) : op &&& 0xFFFF#16 = op := by
  have hm : 0xFFFF#16 = BitVec.allOnes 16 := by decide
  rw [hm, BitVec.and_allOnes]

open Laws.EncodingRow in
/-- Each instruction's own row selects its word. -/
theorem row_selects_encode (i : Instr) : encode i &&& i.row.mask = i.row.fixed := by
  have hsel : Statement i := by
    cases i
    exacts [cls, ret, jp _, call _, seImm _ _, sneImm _ _, seReg _ _, ldImm _ _, addImm _ _, ldReg _ _, orReg _ _,
      andReg _ _, xorReg _ _, addReg _ _, subReg _ _, shr _ _, subn _ _, shl _ _, sneReg _ _, ldI _, jpV0 _, rnd _ _,
      drw _ _ _, skp _, sknp _, ldVxDt _, ldVxK _, ldDtVx _, ldStVx _, addI _, ldF _, ldB _, stRegs _, ldRegs _]
  exact eq_of_beq hsel

/-- The opcode map holds the row of every instruction. -/
theorem row_mem_opcodeMap (i : Instr) : i.row ∈ opcodeMap := by
  cases i <;> simp [opcodeMap, Instr.row]

/-- Every mask covers the high nibble. -/
theorem high_of_selected {op : Word} {i : Instr} (h : op &&& i.row.mask = i.row.fixed) :
    op.extractLsb' 12 4 = i.row.fixed.extractLsb' 12 4 :=
  field_of_selected h (by cases i <;> rw [Instr.row] <;> rfl)

/-- A word that an instruction's row selects decodes: the mask covers the high nibble and what the family asks of the low
bits. -/
theorem decodeWord_of_selected {op : Word} {i : Instr} (h : op &&& i.row.mask = i.row.fixed) :
    ∃ j, decodeWord op = .ok j := by
  have hhi := high_of_selected h
  cases i
  case cls | ret =>
    have hop : op = _ := (and_maskFFFF op).symm.trans h
    simp [hop, Instr.row, decodeWord]
  case seReg | sneReg =>
    have hn : Word.fieldN op = _ := field_of_selected h (by rw [Instr.row]; rfl)
    simp [decodeWord, hhi, hn, Instr.row]
  case ldReg | orReg | andReg | xorReg | addReg | subReg | shr | subn | shl =>
    have hn : Word.fieldN op = _ := field_of_selected h (by rw [Instr.row]; rfl)
    simp [decodeWord, decodeAlu, hhi, hn, Instr.row]
  case skp | sknp =>
    have hnn : Word.fieldNN op = _ := field_of_selected h (by rw [Instr.row]; rfl)
    simp [decodeWord, hhi, hnn, Instr.row]
  case ldVxDt | ldVxK | ldDtVx | ldStVx | addI | ldF | ldB | stRegs | ldRegs =>
    have hnn : Word.fieldNN op = _ := field_of_selected h (by rw [Instr.row]; rfl)
    simp [decodeWord, decodeMisc, hhi, hnn, Instr.row]
  all_goals simp [decodeWord, hhi, Instr.row]

/-- The row of the instruction that a word decodes to selects the word. -/
theorem row_selects_of_decodeWord {op : Word} {i : Instr} (h : decodeWord op = .ok i) : op &&& i.row.mask = i.row.fixed :=
  encode_of_decodeWord h ▸ row_selects_encode i

/-- Two rows of the map whose fixed bits agree where both masks look are the same row. -/
theorem opcodeMap_disjoint : ∀ q ∈ opcodeMap, ∀ r ∈ opcodeMap, q.fixed &&& r.mask = r.fixed &&& q.mask → q = r := by
  decide

/-- Settles O3: a decoded word is the word of its instruction, whose own row selects it; a selected word has the bits the
decoder asks for; and the rows of the map are disjoint. -/
theorem decodeFollowsTheOpcodeMap : Obligations.DecodeFollowsTheOpcodeMap := by
  unfold Obligations.DecodeFollowsTheOpcodeMap
  intro op
  refine ⟨⟨fun ⟨i, hi⟩ => ⟨i.row, row_mem_opcodeMap i, row_selects_of_decodeWord hi⟩, ?_⟩,
    fun _ => row_selects_of_decodeWord, ?_⟩
  · rintro ⟨r, hr, hsel⟩
    obtain ⟨i, -, rfl⟩ := List.mem_map.1 hr
    exact decodeWord_of_selected hsel
  · intro q hq r hr hsq hsr
    apply opcodeMap_disjoint q hq r hr
    rw [← hsq, ← hsr, BitVec.and_assoc, BitVec.and_assoc, BitVec.and_comm q.mask]

/-! The words that no row selects (30_encoding.md R106). -/

/-- The six families of illegal words. -/
def Word.InIllegalFamily (op : Word) : Prop :=
  (op.toNat / 4096 = 0x0 ∧ op.toNat ≠ 0x00E0 ∧ op.toNat ≠ 0x00EE) ∨
  (op.toNat / 4096 = 0x5 ∧ op.toNat % 16 ≠ 0) ∨
  (op.toNat / 4096 = 0x8 ∧ op.toNat % 16 ∈ [0x8, 0x9, 0xA, 0xB, 0xC, 0xD, 0xF]) ∨
  (op.toNat / 4096 = 0x9 ∧ op.toNat % 16 ≠ 0) ∨
  (op.toNat / 4096 = 0xE ∧ op.toNat % 256 ∉ [0x9E, 0xA1]) ∨
  (op.toNat / 4096 = 0xF ∧ op.toNat % 256 ∉ [0x07, 0x0A, 0x15, 0x18, 0x1E, 0x29, 0x33, 0x55, 0x65])

/-- NN of a word is a byte exactly when the word's remainder is that number. -/
theorem fieldNN_eq_iff (op : Word) (nn : Byte) : Word.fieldNN op = nn ↔ op.toNat % 256 = nn.toNat := by
  rw [← BitVec.toNat_inj, fieldNN_toNat]

/-- N of a word is a nibble exactly when the word's remainder is that number. -/
theorem fieldN_eq_iff (op : Word) (n : BitVec 4) : Word.fieldN op = n ↔ op.toNat % 16 = n.toNat := by
  rw [← BitVec.toNat_inj, fieldN_toNat]

/-- The ALU family rejects the words with an unlisted function code. -/
theorem decodeAlu_eq_error (op : Word) (e : DecodeError) :
    decodeAlu op = .error e ↔ e = .illegal op ∧ op.toNat % 16 ∈ [0x8, 0x9, 0xA, 0xB, 0xC, 0xD, 0xF] := by
  have hlt : op.toNat % 16 < 16 := Nat.mod_lt _ (by decide)
  unfold decodeAlu
  rw [fieldN_toNat]
  generalize op.toNat % 16 = n at hlt ⊢
  interval_cases n <;> simp [eq_comm]

/-- A guarded row rejects a word exactly when the guard fails and what follows rejects it. -/
theorem guarded_eq_error {c : Prop} [Decidable c] (i : Instr) (next : Except DecodeError Instr) (e : DecodeError) :
    (if c then .ok i else next) = .error e ↔ ¬ c ∧ next = .error e := by
  split <;> simp [*]

/-- The F family rejects the words with an unlisted function byte. -/
theorem decodeMisc_eq_error (op : Word) (e : DecodeError) :
    decodeMisc op = .error e ↔
      e = .illegal op ∧ op.toNat % 256 ∉ [0x07, 0x0A, 0x15, 0x18, 0x1E, 0x29, 0x33, 0x55, 0x65] := by
  simp only [decodeMisc, guarded_eq_error, fieldNN_eq_iff]
  simp [and_comm, and_assoc, eq_comm]

/-- The decoder rejects the words of the six families, each with the word itself. -/
theorem decodeWord_eq_error (op : Word) (e : DecodeError) :
    decodeWord op = .error e ↔ e = .illegal op ∧ op.InIllegalFamily := by
  have hlt : op.toNat / 4096 < 16 := Nat.div_lt_of_lt_mul op.isLt
  unfold decodeWord Word.InIllegalFamily
  rw [high_toNat]
  generalize op.toNat / 4096 = hi at hlt ⊢
  -- the decoder's branch for each high nibble; 8 and F have lemmas of their own
  interval_cases hi <;>
    simp [guarded_eq_error, decodeAlu_eq_error, decodeMisc_eq_error, fieldN_eq_iff, fieldNN_eq_iff]
  -- left are the guards of 0, 5, 9 and E, in the decoder's order and in the family's
  all_goals simp [← BitVec.toNat_inj, and_comm, and_assoc, eq_comm]

/-- Settles O4: the only rejection is of the word itself, and the words rejected are those of the six families. -/
theorem illegalWordsAreTheSixFamilies : Obligations.IllegalWordsAreTheSixFamilies := by
  unfold Obligations.IllegalWordsAreTheSixFamilies
  exact fun op => ⟨(decodeWord_eq_error op _).trans (and_iff_right rfl), fun e h => ((decodeWord_eq_error op e).1 h).1⟩

/-- Settles O5, by running the decoder on the ten words. -/
theorem sampleWordsDecode : Obligations.SampleWordsDecode := by
  unfold Obligations.SampleWordsDecode
  decide

end Sys2Proof

/-! The ALU instructions (40_alu.md) and FX07: each of them writes a register, a result with its flag, or a logic result, and
moves past itself. -/

namespace Sys2Proof

/-- A word in formats `XNN` and `XFF` as a number, its fixed digits first. -/
theorem wordXFF_toNat (hi : BitVec 4) (x : RegIdx) (nn : Byte) :
    (wordXNN hi x nn).toNat = 0x1000 * hi.toNat + nn.toNat + 0x100 * x.val := by
  rw [wordXNN_toNat, Nat.add_right_comm]

/-- A word in format `XYN` as a number, its fixed digits first. -/
theorem wordXYF_toNat (hi : BitVec 4) (x y : RegIdx) (n : BitVec 4) :
    (wordXYN hi x y n).toNat = 0x1000 * hi.toNat + n.toNat + 0x100 * x.val + 0x10 * y.val := by
  rw [wordXYN_toNat]
  omega

end Sys2Proof

namespace Sys2Proof.Machine

/-! Flags, differences and the shift source (40_alu.md R130, R139–R142) -/

/-- A flag is 0x01 if its condition holds, and 0x00 if not. -/
theorem flagByte_decide (p : Prop) [Decidable p] : flagByte (decide p) = if p then 0x01 else 0x00 := by
  simp only [flagByte, decide_eq_true_eq]

/-- A flag as a number. -/
theorem flagByte_toNat (c : Bool) : (flagByte c).toNat = c.toNat := by
  cases c <;> rfl

/-- A right shift moves out the remainder by 2. -/
theorem shiftedOutRight_toNat (src : Byte) : (shiftedOutRight src).toNat = src.toNat % 2 := by
  rw [shiftedOutRight, flagByte_toNat, BitVec.getLsbD, Nat.toNat_testBit, pow_zero, Nat.div_one]

/-- A left shift moves out the quotient by 128. -/
theorem shiftedOutLeft_toNat (src : Byte) : (shiftedOutLeft src).toNat = src.toNat / 128 := by
  have hlt : src.toNat / 128 < 2 := Nat.div_lt_of_lt_mul src.isLt
  rw [shiftedOutLeft, flagByte_toNat, BitVec.getLsbD, Nat.toNat_testBit]
  exact Nat.mod_eq_of_lt hlt

/-- A difference modulo 256, the 256 added first. -/
theorem sub_toNat_mod (a b : Byte) : (a - b).toNat = (256 + a.toNat - b.toNat) % 256 := by
  rw [BitVec.toNat_sub]
  omega

/-- The shift source by SHIFT_SRC. -/
theorem State.shiftSource_eq (s : State) (x y : RegIdx) :
    s.shiftSource x y = if s.params.shiftSrc = .vy then s.getV y else s.getV x := by
  unfold State.shiftSource
  split
  · next h => rw [if_pos h]
  · next h => rw [if_neg (by rw [h]; decide)]

/-! What is left by an instruction that ends in each kind of register write. `u` is the state the write starts from: the
start of the step with pc moved, and a draw counted. -/

/-- An instruction that writes Vx and nothing else. -/
theorem exec_writes_register {i : Instr} {s u : State} {x : RegIdx} {b : Byte} (h : exec i s = .next (u.setV x b)) :
    ∃ t, exec i s = .next t ∧ t.getV x = b ∧ (∀ k, k ≠ x → t.getV k = u.getV k) ∧ t = { u with v := t.v } :=
  ⟨_, h, by rw [State.setV_getV, if_pos rfl], fun _ hk => by rw [State.setV_getV, if_neg hk], rfl⟩

/-- An instruction that writes a result to Vx, then a flag to VF: with X = F only the flag is left (40_alu.md R131). -/
theorem exec_writes_result_flag {i : Instr} {s u : State} {x : RegIdx} {r f : Byte}
    (h : exec i s = .next (u.setResultFlag x r f)) :
    ∃ t, exec i s = .next t ∧ (x ≠ regVF → t.getV x = r) ∧ t.getV regVF = f ∧
      (∀ k, k ≠ x → k ≠ regVF → t.getV k = u.getV k) ∧ t = { u with v := t.v } := by
  refine ⟨_, h, fun hx => ?_, ?_, fun k hx hf => ?_, rfl⟩
  · rw [State.setResultFlag_getV, if_neg hx, if_pos rfl]
  · rw [State.setResultFlag_getV, if_pos rfl]
  · rw [State.setResultFlag_getV, if_neg hf, if_neg hx]

/-- An instruction that writes a logic result to Vx, then clears VF if LOGIC_VF_RESET (40_alu.md R135). -/
theorem exec_writes_logic_result {i : Instr} {s u : State} {x : RegIdx} {r : Byte}
    (h : exec i s = .next (u.setLogicResult x r)) :
    ∃ t, exec i s = .next t ∧ (x ≠ regVF ∨ u.params.logicVfReset = false → t.getV x = r) ∧
      (u.params.logicVfReset = true → t.getV regVF = 0x00) ∧
      (∀ k, k ≠ x → (k ≠ regVF ∨ u.params.logicVfReset = false) → t.getV k = u.getV k) ∧ t = { u with v := t.v } := by
  have hkeep : ∀ k : RegIdx, k ≠ regVF ∨ u.params.logicVfReset = false → ¬ (u.params.logicVfReset = true ∧ k = regVF) := by
    rintro k (hk | hr) ⟨hr', hk'⟩
    · exact hk hk'
    · exact absurd hr' (by rw [hr]; decide)
  refine ⟨_, h, fun hx => ?_, fun hr => ?_, fun k hx hk => ?_, State.setLogicResult_eq u x r⟩
  · rw [State.setLogicResult_getV, if_neg (hkeep x hx), if_pos rfl]
  · rw [State.setLogicResult_getV, if_pos ⟨hr, rfl⟩]
  · rw [State.setLogicResult_getV, if_neg (hkeep k hk), if_neg hx]

/-- An instruction that writes a − b to Vx, then the not-borrow of a − b to VF (40_alu.md R139, R141). -/
theorem exec_writes_difference {i : Instr} {s u : State} {x : RegIdx} {a b : Byte}
    (h : exec i s = .next (u.setResultFlag x (a - b) (notBorrow a b))) :
    ∃ t, exec i s = .next t ∧ (x ≠ regVF → (t.getV x).toNat = (256 + a.toNat - b.toNat) % 256) ∧
      t.getV regVF = (if a.toNat ≥ b.toNat then 0x01 else 0x00) ∧
      (∀ k, k ≠ x → k ≠ regVF → t.getV k = u.getV k) ∧ t = { u with v := t.v } := by
  obtain ⟨t, ht, hx, hf, hframe⟩ := exec_writes_result_flag h
  exact ⟨t, ht, fun hne => by rw [hx hne, sub_toNat_mod], by rw [hf, notBorrow, flagByte_decide], hframe⟩

/-! The statements -/

/-- Settles O11: each of the three writes one register past its own word. -/
theorem loadsAndMovesWriteOneRegister : Obligations.LoadsAndMovesWriteOneRegister := by
  unfold Obligations.LoadsAndMovesWriteOneRegister
  intro s x y nn
  exact ⟨exec_writes_register (u := s.advance) rfl, exec_writes_register (u := s.advance) rfl,
    exec_writes_register (u := s.advance) rfl, wordXNN_toNat 0x6 x nn, wordXYF_toNat 0x8 x y 0x0, wordXFF_toNat 0xF x 0x07⟩

/-- Settles O12: it writes Vx alone, and the sum of bytes wraps at 256. -/
theorem addImmediateWrapsWithoutFlag : Obligations.AddImmediateWrapsWithoutFlag := by
  unfold Obligations.AddImmediateWrapsWithoutFlag
  intro s x nn
  obtain ⟨t, ht, hx, hframe⟩ := exec_writes_register (i := .addImm x nn) (u := s.advance) rfl
  exact ⟨⟨t, ht, by rw [hx, BitVec.toNat_add], hframe⟩, wordXNN_toNat 0x7 x nn⟩

/-- Settles O13: each of the three writes a logic result past its own word. -/
theorem logicInstructionsCombineBits : Obligations.LogicInstructionsCombineBits := by
  unfold Obligations.LogicInstructionsCombineBits
  intro s x y
  exact ⟨exec_writes_logic_result (u := s.advance) rfl, exec_writes_logic_result (u := s.advance) rfl,
    exec_writes_logic_result (u := s.advance) rfl, wordXYF_toNat 0x8 x y 0x1, wordXYF_toNat 0x8 x y 0x2,
    wordXYF_toNat 0x8 x y 0x3⟩

/-- Settles O14: the flag written after the sum is the carry. -/
theorem addRegistersSetsCarry : Obligations.AddRegistersSetsCarry := by
  unfold Obligations.AddRegistersSetsCarry
  intro s x y
  obtain ⟨t, ht, hx, hf, hframe⟩ := exec_writes_result_flag (i := .addReg x y) (u := s.advance) rfl
  exact ⟨⟨t, ht, fun h => by rw [hx h, BitVec.toNat_add], by rw [hf, carry, flagByte_decide], hframe⟩,
    wordXYF_toNat 0x8 x y 0x4⟩

/-- Settles O15: each of the two writes a difference and its not-borrow past its own word. -/
theorem subtractionsSetNotBorrow : Obligations.SubtractionsSetNotBorrow := by
  unfold Obligations.SubtractionsSetNotBorrow
  intro s x y
  exact ⟨exec_writes_difference (u := s.advance) rfl, exec_writes_difference (u := s.advance) rfl,
    wordXYF_toNat 0x8 x y 0x5, wordXYF_toNat 0x8 x y 0x7⟩

/-- Settles O16: the shifted source is written, then the bit that a shift by one moves out of it. -/
theorem shiftsFollowShiftSrc : Obligations.ShiftsFollowShiftSrc := by
  unfold Obligations.ShiftsFollowShiftSrc
  intro s x y src hsrc
  obtain rfl : src = s.shiftSource x y := hsrc.trans (s.shiftSource_eq x y).symm
  refine ⟨?shr, ?shl, wordXYF_toNat 0x8 x y 0x6, wordXYF_toNat 0x8 x y 0xE⟩
  case shr =>
    obtain ⟨t, ht, hx, hf, hframe⟩ := exec_writes_result_flag (i := .shr x y) (u := s.advance) rfl
    exact ⟨t, ht, fun h => by rw [hx h, BitVec.toNat_ushiftRight, Nat.shiftRight_eq_div_pow, pow_one],
      by rw [hf, shiftedOutRight_toNat], hframe⟩
  case shl =>
    obtain ⟨t, ht, hx, hf, hframe⟩ := exec_writes_result_flag (i := .shl x y) (u := s.advance) rfl
    exact ⟨t, ht, fun h => by rw [hx h, BitVec.toNat_shiftLeft, Nat.shiftLeft_eq, pow_one, Nat.mul_comm],
      by rw [hf, shiftedOutLeft_toNat], hframe⟩

/-- Settles O17: it writes the masked byte to Vx alone, in the state with the draw counted. -/
theorem randomByteIsMasked : Obligations.RandomByteIsMasked := by
  unfold Obligations.RandomByteIsMasked
  intro s x nn
  obtain ⟨t, ht, hx, hframe⟩ := exec_writes_register (i := .rnd x nn) (u := s.advance.nextDraw) rfl
  exact ⟨⟨t, _, ht, rfl, hx, by rw [hx, BitVec.and_assoc, BitVec.and_not_self]; exact BitVec.and_zero, hframe⟩,
    wordXNN_toNat 0xC x nn⟩

end Sys2Proof.Machine

/-! The display (41_display.md): the pixels of a sprite as `SpriteBit` names them, what DXYN does with them, and what leaves
the display alone. -/

namespace Sys2Proof.Machine

/-- A row of the display is row j of the sprite iff j is its distance down from Vy mod 32, wrapping (41_display.md R180). -/
theorem eq_wrapRow_iff {vy : Byte} {r : RowIdx} {j : Nat} (hj : j < 32) :
    r = wrapRow vy j ↔ (r.val + 32 - vy.toNat % 32) % 32 = j := by
  have hr := r.isLt
  rw [Fin.ext_iff, wrapRow]
  dsimp only
  omega

/-- A column of the display is column i of the sprite iff i is its distance right of Vx mod 64, wrapping
(41_display.md R180). -/
theorem eq_wrapCol_iff {vx : Byte} {c : ColIdx} {i : Nat} (hi : i < 64) :
    c = wrapCol vx i ↔ (c.val + 64 - vx.toNat % 64) % 64 = i := by
  have hc := c.isLt
  rw [Fin.ext_iff, wrapCol]
  dsimp only
  omega

/-- The N sprite bytes of DXYN, from I on. -/
def State.spriteBytes (s : State) (n : BitVec 4) : List Byte := (List.range' s.iReg.toNat n.toNat).map s.byteAt

theorem State.spriteBytes_length (s : State) (n : BitVec 4) : (s.spriteBytes n).length = n.toNat := by
  rw [State.spriteBytes, List.length_map, List.length_range']

/-- Row j of the sprite is the byte at I + j. -/
theorem State.spriteBytes_getD (s : State) {n : BitVec 4} {j : Nat} (hj : j < n.toNat) :
    (s.spriteBytes n).getD j 0x00 = s.byteAt (s.iReg.toNat + j) := by
  rw [List.getD_eq_getElem _ _ (by rwa [State.spriteBytes_length])]
  simp [State.spriteBytes]

/-- The sprite has a 1 at a pixel iff it is one of the pixels that the draw addresses. -/
theorem mem_spritePixels_iff_spriteBit (s : State) (x y : RegIdx) (n : BitVec 4) (r : RowIdx) (c : ColIdx) :
    (r, c) ∈ spritePixels (s.getV x) (s.getV y) 0 (s.spriteBytes n) ↔ SpriteBit s x y n r c := by
  have hn := n.isLt
  rw [mem_spritePixels, SpriteBit, State.spriteBytes_length]
  constructor
  · rintro ⟨j, i, hj, hi, hb, hr, hc⟩
    rw [Nat.zero_add, eq_wrapRow_iff (by omega)] at hr
    rw [eq_wrapCol_iff (by omega)] at hc
    rw [State.spriteBytes_getD s hj] at hb
    rw [hr, hc]
    exact ⟨hj, hi, hb⟩
  · rintro ⟨hj, hi, hb⟩
    refine ⟨_, _, hj, hi, by rwa [State.spriteBytes_getD s hj], ?_, (eq_wrapCol_iff (by omega)).2 rfl⟩
    rw [Nat.zero_add]
    exact (eq_wrapRow_iff (by omega)).2 rfl

/-- DXYN inside memory: the display and the flag are those of drawing the bytes from I on, and pc moves on. -/
theorem exec_drw_ok {s : State} (x y : RegIdx) {n : BitVec 4} (h : n.toNat = 0 ∨ s.iReg.toNat + n.toNat ≤ 4096) :
    exec (.drw x y n) s =
      .next ((s.advance.setDisp (drawSprite s.disp (s.getV x) (s.getV y) (s.spriteBytes n)).1).setV regVF
        (flagByte (drawSprite s.disp (s.getV x) (s.getV y) (s.spriteBytes n)).2)) :=
  execDrw_ok x y n h

/-- A draw inverts the pixels that the sprite has a 1 at, and collides iff one of them was on. -/
theorem drawSprite_spriteBit (s : State) (x y : RegIdx) (n : BitVec 4) :
    (∀ r c, SpriteBit s x y n r c →
      Display.pixel (drawSprite s.disp (s.getV x) (s.getV y) (s.spriteBytes n)).1 r c = !Display.pixel s.disp r c) ∧
    (∀ r c, ¬ SpriteBit s x y n r c →
      Display.pixel (drawSprite s.disp (s.getV x) (s.getV y) (s.spriteBytes n)).1 r c = Display.pixel s.disp r c) ∧
    ((drawSprite s.disp (s.getV x) (s.getV y) (s.spriteBytes n)).2 = true ↔
      ∃ r c, SpriteBit s x y n r c ∧ Display.pixel s.disp r c = true) := by
  have hlen : (s.spriteBytes n).length ≤ 32 := by rw [State.spriteBytes_length]; omega
  obtain ⟨hpix, hhit⟩ := drawSprite_spec s.disp (s.getV x) (s.getV y) (s.spriteBytes n) hlen
  refine ⟨fun r c hb => ?_, fun r c hb => ?_, ?_⟩
  · rw [hpix, decide_eq_true ((mem_spritePixels_iff_spriteBit s x y n r c).2 hb), Bool.xor_true]
  · rw [hpix, decide_eq_false (mt (mem_spritePixels_iff_spriteBit s x y n r c).1 hb), Bool.xor_false]
  · simp only [hhit, List.any_eq_true, Prod.exists, mem_spritePixels_iff_spriteBit]

/-- Settles O19, by the draw of the bytes from I on: the pixels it addresses are those of `SpriteBit`. -/
theorem drawXorsTheSprite : Obligations.DrawXorsTheSprite := by
  unfold Obligations.DrawXorsTheSprite
  intro s x y n
  refine ⟨fun h => ?inside, fun hn h => ?outside, wordXYN_toNat 0xD x y n⟩
  case inside =>
    obtain ⟨hset, hclear, hhit⟩ := drawSprite_spriteBit s x y n
    refine ⟨_, exec_drw_ok x y (by omega), hset, hclear, fun hon => ?_, fun hoff => ?_, fun k hk => ?_, rfl⟩
    · rw [State.setV_getV, if_pos rfl, hhit.2 hon, flagByte, if_pos rfl]
    · have hmiss : ¬ ∃ r c, SpriteBit s x y n r c ∧ Display.pixel s.disp r c = true :=
        fun ⟨r, c, hb, hon⟩ => absurd hon (by rw [hoff r c hb]; decide)
      rw [State.setV_getV, if_pos rfl, flagByte, if_neg (mt hhit.1 hmiss)]
    · rw [State.setV_getV, if_neg hk]
      rfl
  case outside =>
    rw [exec, execDrw_error x y n hn (by omega)]
    exact raises_raise ..

/-- The sprite of DXYN is the same in two states with the same I, coordinates and bytes. -/
theorem spriteBit_congr {s t : State} {x y : RegIdx} {n : BitVec 4} {r : RowIdx} {c : ColIdx} (hi : t.iReg = s.iReg)
    (hx : t.getV x = s.getV x) (hy : t.getV y = s.getV y) (hb : ∀ a, t.byteAt a = s.byteAt a) :
    SpriteBit t x y n r c ↔ SpriteBit s x y n r c := by
  simp only [SpriteBit, hi, hx, hy, hb]

/-- Settles O20, by two uses of O19: the second draw has the sprite of the first, and a pixel inverted twice is as before. -/
theorem drawTwiceRestoresTheDisplay : Obligations.DrawTwiceRestoresTheDisplay := by
  unfold Obligations.DrawTwiceRestoresTheDisplay
  intro s t x y n hx hy h hb
  obtain ⟨t', ht, hset, hclear, -, -, hregs, hframe⟩ := (drawXorsTheSprite s x y n).1 hb
  obtain rfl : t = t' := by rw [ht] at h; cases h; rfl
  have hi : t.iReg = s.iReg := by rw [hframe]
  have hbytes : ∀ a, t.byteAt a = s.byteAt a := fun a => by rw [hframe]; rfl
  have hsame : ∀ r c, SpriteBit t x y n r c ↔ SpriteBit s x y n r c :=
    fun r c => spriteBit_congr hi (hregs x hx) (hregs y hy) hbytes
  obtain ⟨u, hu, hset', hclear', hhit, hmiss, -, -⟩ := (drawXorsTheSprite t x y n).1 (by rwa [hi])
  refine ⟨u, hu, Display.ext_pixel fun r c => ?_, fun ⟨r, c, hbit, hoff⟩ => ?_, fun hon => ?_⟩
  · by_cases hbit : SpriteBit s x y n r c
    · rw [hset' r c ((hsame r c).2 hbit), hset r c hbit, Bool.not_not]
    · rw [hclear' r c (mt (hsame r c).1 hbit), hclear r c hbit]
  · exact hhit ⟨r, c, (hsame r c).2 hbit, by rw [hset r c hbit, hoff]; rfl⟩
  · refine hmiss fun r c hbit => ?_
    have hbit' := (hsame r c).1 hbit
    rw [hset r c hbit', hon r c hbit']
    rfl

/-- An instruction other than 00E0 and DXYN leaves the display as it is, and so does one that halts the core. -/
theorem exec_disp {i : Instr} {s t : State} (h : exec i s = .next t) (hC : i ≠ .cls) (hD : ∀ x y n, i ≠ .drw x y n) :
    t.disp = s.disp := by
  cases i
  case cls => exact absurd rfl hC
  case drw x y n => exact absurd rfl (hD x y n)
  case ret => rcases execRet_next h with ⟨_, rfl⟩ | ⟨_, _, rfl⟩ <;> rfl
  case call => rcases execCall_next h with ⟨_, rfl⟩ | ⟨_, _, _, rfl⟩ <;> rfl
  case ldRegs x => rcases execLdRegs_cases s x with ⟨-, e⟩ | ⟨-, e⟩ <;> (rw [exec, e] at h; cases h; rfl)
  case ldB x => rcases execLdB_cases s x with ⟨-, e⟩ | ⟨-, _, -, e⟩ <;> (rw [exec, e] at h; cases h; rfl)
  case stRegs x => rcases execStRegs_cases s x with ⟨-, e⟩ | ⟨-, _, -, e⟩ <;> (rw [exec, e] at h; cases h; rfl)
  case ldVxK x =>
    rcases execLdVxK_cases x s with ⟨-, k, u, hu, e⟩ | ⟨-, e⟩ <;> (rw [exec, e] at h; cases h)
    · obtain ⟨n, rfl⟩ := State.anyPressed_state hu
      rfl
    · rfl
  case orReg | andReg | xorReg => cases h; exact State.setLogicResult_disp ..
  case seImm | sneImm | seReg | sneReg | skp | sknp => cases h; exact State.skipIf_disp ..
  all_goals cases h; rfl

/-- A step that changes the display is a running core's, and the word it fetched decodes to 00E0 or DXYN. -/
theorem step_disp {s t : State} (h : step s = .next t) (hd : t.disp ≠ s.disp) :
    s.mode = .running ∧ ∃ w, fetch s = .ok w ∧
      (decodeWord w = .ok .cls ∨ ∃ x y n, decodeWord w = .ok (.drw x y n)) := by
  rcases step_cases s with ⟨-, e⟩ | ⟨x, -, e⟩ | ⟨-, a, -, e⟩ | ⟨-, op, er, -, -, e⟩ | ⟨hm, op, i, hf, hi, e⟩ <;> rw [e] at h
  · cases h; exact absurd rfl hd
  · rcases awaitKey_next h with rfl | ⟨k, n, rfl⟩ <;> exact absurd rfl hd
  · cases h; exact absurd rfl hd
  · cases h; exact absurd rfl hd
  · refine ⟨hm, op, hf, ?_⟩
    by_contra hno
    obtain ⟨hC, hD⟩ := not_or.1 hno
    exact hd (exec_disp h (fun hc => hC (hc ▸ hi)) fun x y n hc => hD ⟨x, y, n, hc ▸ hi⟩)

/-- Settles O21, by the port: only load and step touch the display. -/
theorem onlyClearDrawAndLoadWriteTheDisplay : Obligations.OnlyClearDrawAndLoadWriteTheDisplay := by
  unfold Obligations.OnlyClearDrawAndLoadWriteTheDisplay
  intro op s t h _ hd
  cases op with
  | load rom => exact .inl ⟨rom, rfl⟩
  | step => exact .inr ⟨rfl, step_disp h hd⟩
  | tick => cases h; exact absurd (by rw [tick_eq]) hd
  | setKey k pressed => cases h; exact absurd (by rw [setKey_eq]) hd
  | display => cases h; exact absurd rfl hd
  | status => cases h; exact absurd rfl hd

/-- Settles O18: 00E0 sets the cleared display and moves pc. -/
theorem clearTurnsEveryPixelOff : Obligations.ClearTurnsEveryPixelOff := by
  unfold Obligations.ClearTurnsEveryPixelOff
  exact ⟨fun _ => ⟨_, rfl, Display.clear_pixel, rfl⟩, rfl⟩

end Sys2Proof.Machine

/-! Keys and timers (42_keys_timers.md): the tick, the writes of the latch, the key skips, and the two halves of the key
wait, FX0A at its own word and the steps of the waiting core. -/

namespace Sys2Proof.Machine

/-! The tick and the latch -/

/-- A timer one tick later as a number: the subtraction of `Nat` is the floor at 0 (42_keys_timers.md R220). -/
theorem countDown_toNat (t : Byte) : (countDown t).toNat = t.toNat - 1 := by
  unfold countDown
  split
  · next h => rw [h]; rfl
  · bv_omega

/-- A tick of a halted core. -/
theorem tick_halted {s : State} (h : s.mode = .halted) : tick s = s := by
  rw [tick, h]

/-- A tick of a core that is not halted. -/
theorem tick_not_halted {s : State} (h : s.mode ≠ .halted) :
    tick s = { s with dt := countDown s.dt, st := countDown s.st } := by
  unfold tick
  split
  · next hm => exact absurd hm h
  · rfl

/-- The latch after one of its keys is written. -/
theorem pressKey_isPressed (s : State) (k j : KeyIdx) (p : Bool) :
    (pressKey k p s).isPressed j = if j = k then p else s.isPressed j :=
  writeKey_get s.keys k j p

/-- The first press of a PRESS_EDGE wait: the write of key k with value p is recorded (42_keys_timers.md R231). -/
def State.RecordsPress (s : State) (k : KeyIdx) (p : Bool) : Prop :=
  s.params.keywaitTrigger = .pressEdge ∧ (∃ x, s.mode = .awaitingKey x) ∧ s.isPressed k = false ∧ p = true ∧
    s.keyEvent = none

/-- The first press of a PRESS_EDGE wait is the key event. -/
theorem keyEventAfter_of_recordsPress {s : State} {k : KeyIdx} {p : Bool} (h : s.RecordsPress k p) :
    keyEventAfter s k p = some k := by
  obtain ⟨ht, ⟨x, hm⟩, hk, rfl, he⟩ := h
  simp [keyEventAfter, ht, hm, hk, he]

/-- Every other write leaves the key event as it is. -/
theorem keyEventAfter_of_not_recordsPress {s : State} {k : KeyIdx} {p : Bool} (h : ¬ s.RecordsPress k p) :
    keyEventAfter s k p = s.keyEvent := by
  unfold keyEventAfter
  split
  · next x ht hm he =>
    split
    · next hp =>
      obtain ⟨rfl, hk⟩ : p = true ∧ s.isPressed k = false := by simpa using hp
      exact absurd ⟨ht, ⟨x, hm⟩, hk, rfl, he⟩ h
    · exact he.symm
  · rfl

/-! The key skips -/

/-- A skip moves pc by 4 if its condition holds, else by 2. -/
theorem State.skipIf_eq_pc (s : State) (c : Bool) :
    s.skipIf c = { s with pc := if c then s.pc + 4 else s.pc + 2 } := by
  rw [State.skipIf_eq, State.skipIf_pc, pc_add_two_two]

/-- The key that the low nibble of a byte names is that bit of the latch. -/
theorem State.isPressed_lowNibble (s : State) (b : Byte) : s.isPressed (lowNibble b) = s.keys.getLsbD (b.toNat % 16) := by
  rw [State.isPressed, lowNibble_val]

/-! The choice of a key, and what FX0A and a step of the waiting core do with it -/

/-- A key that is pressed is some choice of `any_pressed()`. -/
theorem State.anyPressed_of_pressed {s : State} {k : KeyIdx} (hk : s.isPressed k = true) :
    ∃ j u, s.anyPressed = some (j, u) := by
  rcases h : s.anyPressed with _ | ⟨j, u⟩
  · exact absurd hk (by rw [s.anyPressed_eq_none.1 h k]; decide)
  · exact ⟨j, u, rfl⟩

/-- With KEY_PICK = LOWEST the choice is the lowest pressed key, without a draw (42_keys_timers.md R203). -/
theorem State.anyPressed_lowest {s : State} {k : KeyIdx} (hp : s.params.keyPick = .lowest) (hk : s.isPressed k = true)
    (hmin : ∀ j, s.isPressed j = true → k ≤ j) : s.anyPressed = some (k, s) := by
  obtain ⟨j, u, hj⟩ := State.anyPressed_of_pressed hk
  obtain ⟨hpressed, ⟨-, rfl, hle⟩ | ⟨hany, -⟩⟩ := State.anyPressed_cases hj
  · rw [hj, le_antisymm (hle k hk) (hmin j hpressed)]
  · rw [hp] at hany; cases hany

/-- With KEY_PICK = ANY the choice is some pressed key, and one draw is taken (42_keys_timers.md R203). -/
theorem State.anyPressed_any {s : State} (hp : s.params.keyPick = .any) (h : ∃ k, s.isPressed k = true) :
    ∃ k, s.isPressed k = true ∧ s.anyPressed = some (k, s.nextDraw) := by
  obtain ⟨k, hk⟩ := h
  obtain ⟨j, u, hj⟩ := State.anyPressed_of_pressed hk
  obtain ⟨hpressed, ⟨hlow, -⟩ | ⟨-, rfl⟩⟩ := State.anyPressed_cases hj
  · rw [hp] at hlow; cases hlow
  · exact ⟨j, hpressed, hj⟩

/-- The byte that a key number is written as. -/
theorem keyByte_toNat (k : KeyIdx) : (BitVec.ofNat 8 k.val).toNat = k.val :=
  Nat.mod_eq_of_lt (by omega)

/-- FX0A with LEVEL and a key to choose writes it to Vx past its own word. -/
theorem exec_ldVxK_pick {s u : State} {k : KeyIdx} (x : RegIdx) (ht : s.params.keywaitTrigger = .level)
    (hk : s.anyPressed = some (k, u)) :
    ∃ t, exec (.ldVxK x) s = .next t ∧ (t.getV x).toNat = k.val ∧ (∀ r, r ≠ x → t.getV r = u.getV r) ∧
      t = { u with v := t.v, pc := u.pc + 2 } := by
  have h : exec (.ldVxK x) s = .next (u.advance.setV x (BitVec.ofNat 8 k.val)) := by
    simp only [exec, execLdVxK, ht, hk]
  obtain ⟨t, he, hx, hframe⟩ := exec_writes_register h
  exact ⟨t, he, by rw [hx, keyByte_toNat], hframe⟩

/-- FX0A with PRESS_EDGE or no key held suspends at its own word. -/
theorem exec_ldVxK_suspend {s : State} (x : RegIdx)
    (h : s.params.keywaitTrigger = .pressEdge ∨ ∀ k, s.isPressed k = false) :
    exec (.ldVxK x) s = .next (s.suspend x) := by
  rcases execLdVxK_cases x s with ⟨ht, k, u, hk, -⟩ | ⟨-, e⟩
  · rcases h with hedge | hnone
    · rw [ht] at hedge; cases hedge
    · rw [s.anyPressed_eq_none.2 hnone] at hk; cases hk
  · exact e

/-- A waiting core with LEVEL and a key to choose resumes with it. -/
theorem awaitKey_pick {s u : State} {k : KeyIdx} (x : RegIdx) (ht : s.params.keywaitTrigger = .level)
    (hk : s.anyPressed = some (k, u)) : awaitKey x s = .next (u.resume x k) := by
  simp only [awaitKey, ht, hk]

/-- A waiting core with PRESS_EDGE and a key event resumes with that key. -/
theorem awaitKey_event {s : State} {k : KeyIdx} (x : RegIdx) (ht : s.params.keywaitTrigger = .pressEdge)
    (hk : s.keyEvent = some k) : awaitKey x s = .next (s.resume x k) := by
  simp only [awaitKey, ht, hk]

/-- A waiting core with no key to take stays as it is. -/
theorem awaitKey_hold {s : State} (x : RegIdx)
    (h : (s.params.keywaitTrigger = .level ∧ ∀ k, s.isPressed k = false) ∨
      (s.params.keywaitTrigger = .pressEdge ∧ s.keyEvent = none)) : awaitKey x s = .next s := by
  rcases h with ⟨ht, hnone⟩ | ⟨ht, hnone⟩
  · simp only [awaitKey, ht, s.anyPressed_eq_none.2 hnone]
  · simp only [awaitKey, ht, hnone]

/-- A step that resumes from u with key k writes Vx, moves pc on once, runs again and clears the key event
(42_keys_timers.md R202). -/
theorem step_writes_key {s u : State} {x : RegIdx} {k : KeyIdx} (h : step s = .next (u.resume x k)) :
    ∃ t, step s = .next t ∧ (t.getV x).toNat = k.val ∧ (∀ r, r ≠ x → t.getV r = u.getV r) ∧
      t = { u with v := t.v, pc := u.pc + 2, mode := .running, keyEvent := none } :=
  ⟨_, h, by rw [State.resume_getV, if_pos rfl, keyByte_toNat], fun r hr => by rw [State.resume_getV, if_neg hr], rfl⟩

/-- A core that is not halted answers ok (00_scope.md R24). -/
theorem State.outcome_ok {s : State} (h : s.mode ≠ .halted) : s.outcome = .ok := by
  unfold State.outcome
  split
  · next hm _ => exact absurd hm h
  · rfl

/-- A step of a waiting core does not halt it. -/
theorem awaitKey_not_halted {x : RegIdx} {s t : State} (hm : s.mode = .awaitingKey x) (h : awaitKey x s = .next t) :
    t.mode ≠ .halted := by
  rcases awaitKey_next h with rfl | ⟨k, n, rfl⟩
  · simp [hm]
  · simp

/-! The statements -/

/-- Settles O27: each timer counts down by itself, and a halted core ignores the tick. -/
theorem tickCountsTimersDown : Obligations.TickCountsTimersDown := by
  unfold Obligations.TickCountsTimersDown
  intro s
  refine ⟨fun h => by rw [port, tick_halted h], fun h => ⟨_, rfl, ?_⟩⟩
  rw [tick_not_halted h]
  exact ⟨countDown_toNat s.dt, countDown_toNat s.st, rfl, rfl⟩

/-- Settles O28: it is `pressKey`, whose two writes are the latch and the key event. -/
theorem setKeyWritesTheLatch : Obligations.SetKeyWritesTheLatch := by
  unfold Obligations.SetKeyWritesTheLatch
  intro s k p
  refine ⟨pressKey k p s, ?_, ?_, fun j => pressKey_isPressed s k j p, keyEventAfter_of_recordsPress,
    keyEventAfter_of_not_recordsPress, rfl⟩
  · rw [port, setKey_inside]
  · rw [portAnswer, setKey_inside]

/-- Settles O29: no key has such a number. -/
theorem setKeyRejectsOtherKeys : Obligations.SetKeyRejectsOtherKeys := by
  unfold Obligations.SetKeyRejectsOtherKeys
  intro s k p h
  rw [port, portAnswer, setKey_outside s p h]
  exact ⟨rfl, rfl⟩

/-- Settles O22: both skip on the bit of the latch that the low nibble names. -/
theorem keySkipsTestTheLatch : Obligations.KeySkipsTestTheLatch := by
  unfold Obligations.KeySkipsTestTheLatch
  intro s x
  refine ⟨?skp, ?sknp, wordXFF_toNat 0xE x 0x9E, wordXFF_toNat 0xE x 0xA1⟩
  case skp => rw [exec, execSkp, State.skipIf_eq_pc, State.isPressed_lowNibble]
  case sknp =>
    rw [exec, execSknp, State.skipIf_eq_pc, State.isPressed_lowNibble]
    simp only [Bool.not_eq_true', ← Bool.not_eq_true, ite_not]

/-- Settles O23: each of the two sets a timer past its own word. -/
theorem timerLoadsCopyTheRegister : Obligations.TimerLoadsCopyTheRegister := by
  unfold Obligations.TimerLoadsCopyTheRegister
  intro s x
  exact ⟨rfl, rfl, fun _ => bne_iff_ne, wordXFF_toNat 0xF x 0x15, wordXFF_toNat 0xF x 0x18⟩

/-- Settles O24, by the key that `any_pressed()` chooses for each KEY_PICK. -/
theorem keyWaitCompletesOrSuspends : Obligations.KeyWaitCompletesOrSuspends := by
  unfold Obligations.KeyWaitCompletesOrSuspends
  intro s x
  refine ⟨fun k ht hp hk hmin => exec_ldVxK_pick x ht (State.anyPressed_lowest hp hk hmin), fun ht hp h => ?any,
    exec_ldVxK_suspend x, wordXFF_toNat 0xF x 0x0A⟩
  case any =>
    obtain ⟨k, hk, hpick⟩ := State.anyPressed_any hp h
    obtain ⟨t, ht⟩ := exec_ldVxK_pick x ht hpick
    exact ⟨t, k, hk, ht⟩

/-- Settles O25: the waiting step holds, the invariant keeps pc at the FX0A word, and tick and set_key are those of O27 and
O28. -/
theorem keyWaitHolds : Obligations.KeyWaitHolds := by
  unfold Obligations.KeyWaitHolds
  intro s x hinv hm h
  have hrun : s.mode ≠ .halted := by simp [hm]
  obtain ⟨t, htick, hdt, hst, hframe, -⟩ := (tickCountsTimersDown s).2 hrun
  refine ⟨(step_awaiting hm).trans (awaitKey_hold x h), State.outcome_ok hrun, hinv.waiting x hm,
    ⟨t, htick, hdt, hst, hframe⟩, fun k p => ?_⟩
  obtain ⟨u, hset, -, hlatch, -, -, hframe⟩ := setKeyWritesTheLatch s k p
  exact ⟨u, hset, (hlatch k).trans (if_pos rfl), hframe⟩

/-- Settles O26: a step of the waiting core resumes with the key it may take, and holds when there is none. -/
theorem keyWaitResumes : Obligations.KeyWaitResumes := by
  unfold Obligations.KeyWaitResumes
  intro s x hm
  have hstep : step s = awaitKey x s := step_awaiting hm
  refine ⟨fun k ht hp hk hmin => ?lowest, fun ht hp h => ?any, fun k ht hk => ?event, fun ht h => ?released,
    fun ht h => ?noEvent, fun t h => ?answer⟩
  case lowest => exact step_writes_key (hstep.trans (awaitKey_pick x ht (State.anyPressed_lowest hp hk hmin)))
  case any =>
    obtain ⟨k, hk, hpick⟩ := State.anyPressed_any hp h
    obtain ⟨t, ht⟩ := step_writes_key (hstep.trans (awaitKey_pick x ht hpick))
    exact ⟨t, k, hk, ht⟩
  case event => exact step_writes_key (hstep.trans (awaitKey_event x ht hk))
  case released => exact hstep.trans (awaitKey_hold x (.inl ⟨ht, h⟩))
  case noEvent => exact hstep.trans (awaitKey_hold x (.inr ⟨ht, h⟩))
  case answer => exact State.outcome_ok (awaitKey_not_halted hm (hstep.symm.trans h))

end Sys2Proof.Machine

/-! Flow (43_flow.md): the fetch and what a running core does with the word it reads, the jumps, the call stack, and the
skips. -/

namespace Sys2Proof

/-- A word that decodes is legal: its instruction's row selects it (30_encoding.md R105). -/
theorem Word.legal_of_decodeWord {op : Word} {i : Instr} (h : decodeWord op = .ok i) : Word.legal op = true :=
  List.any_eq_true.2 ⟨i.row, row_mem_opcodeMap i, Laws.EncodingRow.selects_of (row_selects_of_decodeWord h)⟩

/-- An illegal word is rejected. -/
theorem decodeWord_of_not_legal {op : Word} (h : Word.legal op = false) : ∃ e, decodeWord op = .error e := by
  rcases hd : decodeWord op with e | i
  · exact ⟨e, rfl⟩
  · rw [Word.legal_of_decodeWord hd] at h; cases h

end Sys2Proof

namespace Sys2Proof.Machine

/-! A step of a running core, by what it fetches -/

/-- A running core that fetches a word does what the word says. -/
theorem step_fetched {s : State} {op : Word} (hm : s.mode = .running) (hf : fetch s = .ok op) : step s = runWord op s := by
  rw [step_running hm, runInstruction, hf]

/-- A running core that cannot fetch raises MemoryOutOfBounds (60_exceptions.md R304). -/
theorem step_fetch_error {s : State} {a : Nat} (hm : s.mode = .running) (hf : fetch s = .error a) :
    step s = raise .memoryOutOfBounds none (.addr a) s := by
  rw [step_running hm, runInstruction, hf]

/-- A word that decodes runs as its instruction. -/
theorem runWord_decoded {op : Word} {i : Instr} (s : State) (hd : decodeWord op = .ok i) : runWord op s = exec i s := by
  rw [runWord, hd]

/-- An illegal word raises UnknownOpcode (60_exceptions.md R301). -/
theorem runWord_illegal {op : Word} (s : State) (hl : Word.legal op = false) :
    runWord op s = raise .unknownOpcode (some op) .nothing s := by
  obtain ⟨e, hd⟩ := decodeWord_of_not_legal hl
  rw [runWord, hd]

/-- Settles O6: the bytes at pc are the word fetched, which runs as the instruction it decodes to. -/
theorem stepRunsTheDecodedInstruction : Obligations.StepRunsTheDecodedInstruction := by
  unfold Obligations.StepRunsTheDecodedInstruction
  intro s i hm hb hd
  rw [step_fetched hm (fetch_ok s hb), runWord_decoded s hd]

/-- Settles O7, on each side of the bound. -/
theorem fetchReadsTwoBytesOrNamesTheLowestBadAddress : Obligations.FetchReadsTwoBytesOrNamesTheLowestBadAddress := by
  unfold Obligations.FetchReadsTwoBytesOrNamesTheLowestBadAddress
  intro s
  split
  · next h => exact fetch_error s h
  · next h => exact fetch_ok s (Nat.le_of_not_gt h)

/-- Settles O8: the step raises the error of the fetch, or that of the word fetched. -/
theorem fetchAndDecodeErrorsHalt : Obligations.FetchAndDecodeErrorsHalt := by
  unfold Obligations.FetchAndDecodeErrorsHalt
  intro s hm
  constructor
  · intro hb
    rw [step_fetch_error hm (fetch_error s hb)]
    exact raises_raise ..
  · rintro hb op rfl hl
    rw [step_fetched hm (fetch_ok s hb), runWord_illegal s hl]
    exact raises_raise ..

/-! Jumps -/

/-- An address as pc holds it. -/
theorem zext16_toNat (nnn : Addr12) : (zext16 nnn).toNat = nnn.toNat :=
  BitVec.toNat_setWidth_of_le (by decide)

/-- An address and a byte add up without a wrap. -/
theorem zext16_add_zextByte_toNat (nnn : Addr12) (b : Byte) : (zext16 nnn + zextByte b).toNat = nnn.toNat + b.toNat := by
  have hn := nnn.isLt
  have hb := b.isLt
  rw [BitVec.toNat_add, zext16_toNat, zextByte, BitVec.toNat_setWidth_of_le (by decide)]
  omega

/-- Settles O30: each of the two sets pc, and a pc that cannot be fetched is the next fetch's error. -/
theorem jumpsSetThePc : Obligations.JumpsSetThePc := by
  unfold Obligations.JumpsSetThePc
  intro s nnn
  exact ⟨⟨_, rfl, zext16_toNat nnn, rfl, fun h => fetch_error _ (Nat.lt_succ_of_le h)⟩,
    ⟨_, rfl, zext16_add_zextByte_toNat nnn _, rfl, fun h => fetch_error _ (Nat.succ_lt_succ h)⟩,
    wordNNN_toNat 0x1 nnn, wordNNN_toNat 0xB nnn⟩

/-! The call stack -/

/-- Settles O31, by the push onto a stack with a free entry and the overflow of a full one. -/
theorem callPushesTheNextAddress : Obligations.CallPushesTheNextAddress := by
  unfold Obligations.CallPushesTheNextAddress
  intro s nnn
  refine ⟨fun h => ⟨_, execCall_push nnn h, ?entry, fun j hj => ?others, ?sp, zext16_toNat nnn, rfl⟩, fun h => ?overflow,
    wordNNN_toNat 0x2 nnn⟩
  case entry => exact Vector.getElem_set_self h
  case others => exact Vector.getElem_set_ne h j.isLt hj.symm
  case sp => bv_omega
  case overflow =>
    rw [exec, execCall_overflow nnn h]
    exact raises_raise ..

/-- Settles O32, by the pop of a stack with an occupied entry and the underflow of an empty one. -/
theorem returnPopsTheAddress : Obligations.ReturnPopsTheAddress := by
  unfold Obligations.ReturnPopsTheAddress
  refine ⟨fun s => ⟨fun h0 h => ⟨_, execRet_pop h0 h, rfl, ?sp, rfl⟩, fun h => ?underflow⟩, rfl⟩
  case sp => bv_omega
  case underflow =>
    rw [exec, execRet_underflow h]
    exact raises_raise ..

/-- Settles O34, by O31 and O32: the return pops the entry that the call pushed. -/
theorem callThenReturnComesBack : Obligations.CallThenReturnComesBack := by
  unfold Obligations.CallThenReturnComesBack
  intro s t u nnn hlt hcall hstack hsp
  obtain ⟨t', hpush, hentry, -, hdepth, -⟩ := (callPushesTheNextAddress s nnn).1 hlt
  obtain rfl : t' = t := by rw [hpush] at hcall; cases hcall; rfl
  have hu : u.sp.toNat = s.sp.toNat + 1 := by rw [hsp, hdepth]
  obtain ⟨w, hpop, hpc, hwsp, -⟩ := (returnPopsTheAddress.1 u).1 (by omega) (by omega)
  refine ⟨w, hpop, ?_, BitVec.eq_of_toNat_eq (by omega)⟩
  simp only [hpc, hstack, hu, Nat.add_sub_cancel, hentry]

/-! The skips -/

/-- A skip on equal bytes moves pc by 4 when they are equal. -/
theorem State.skipIf_beq (s : State) (a b : Byte) :
    s.skipIf (a == b) = { s with pc := if a = b then s.pc + 4 else s.pc + 2 } := by
  simp only [State.skipIf_eq_pc, beq_iff_eq]

/-- A skip on different bytes moves pc by 2 when they are equal. -/
theorem State.skipIf_bne (s : State) (a b : Byte) :
    s.skipIf (a != b) = { s with pc := if a = b then s.pc + 2 else s.pc + 4 } := by
  simp only [State.skipIf_eq_pc, bne_iff_ne, ne_eq, ite_not]

/-- A skip moves pc by 2 or by 4. -/
theorem State.skipIf_pc_cases (s : State) (c : Bool) : (s.skipIf c).pc = s.pc + 2 ∨ (s.skipIf c).pc = s.pc + 4 := by
  rw [State.skipIf_eq_pc]
  cases c
  · exact .inl rfl
  · exact .inr rfl

/-- A skip is the same whatever memory holds. -/
theorem State.skipIf_withMem (s : State) (c : Bool) (m : Memory) :
    { s with mem := m }.skipIf c = { s.skipIf c with mem := m } := by
  simp only [State.skipIf_eq_pc]

/-- Settles O35: each of the four is a skip on its comparison. -/
theorem compareSkipsMoveOnlyThePc : Obligations.CompareSkipsMoveOnlyThePc := by
  unfold Obligations.CompareSkipsMoveOnlyThePc
  intro s x y nn
  exact ⟨congrArg _ (State.skipIf_beq s _ _), congrArg _ (State.skipIf_bne s _ _), congrArg _ (State.skipIf_beq s _ _),
    congrArg _ (State.skipIf_bne s _ _), wordXNN_toNat 0x3 x nn, wordXNN_toNat 0x4 x nn, wordXYN_toNat 0x5 x y 0x0,
    wordXYN_toNat 0x9 x y 0x0⟩

/-- The six skips test a condition that memory plays no part in (43_flow.md R251, 42_keys_timers.md R204, R205). -/
theorem exec_skip {i : Instr} (s : State)
    (hi : (∃ x nn, i = .seImm x nn) ∨ (∃ x nn, i = .sneImm x nn) ∨ (∃ x y, i = .seReg x y) ∨ (∃ x y, i = .sneReg x y) ∨
      (∃ x, i = .skp x) ∨ (∃ x, i = .sknp x)) :
    ∃ c, ∀ m, exec i { s with mem := m } = .next ({ s with mem := m }.skipIf c) := by
  rcases hi with ⟨x, nn, rfl⟩ | ⟨x, nn, rfl⟩ | ⟨x, y, rfl⟩ | ⟨x, y, rfl⟩ | ⟨x, rfl⟩ | ⟨x, rfl⟩
  · exact ⟨s.getV x == nn, fun _ => rfl⟩
  · exact ⟨s.getV x != nn, fun _ => rfl⟩
  · exact ⟨s.getV x == s.getV y, fun _ => rfl⟩
  · exact ⟨s.getV x != s.getV y, fun _ => rfl⟩
  · exact ⟨s.isPressed (lowNibble (s.getV x)), fun _ => rfl⟩
  · exact ⟨!s.isPressed (lowNibble (s.getV x)), fun _ => rfl⟩

/-- Settles O36: the skip is on a condition that no memory changes, and the word passed over is left to the next fetch. -/
theorem skipsReadNothingTheyPass : Obligations.SkipsReadNothingTheyPass := by
  unfold Obligations.SkipsReadNothingTheyPass
  intro i s hi
  obtain ⟨c, h⟩ := exec_skip s hi
  exact ⟨s.skipIf c, h s.mem, s.skipIf_pc_cases c, s.skipIf_eq c, fun m => by rw [h m, State.skipIf_withMem],
    fetch_error (s.skipIf c)⟩

end Sys2Proof.Machine

/-! Memory transfers and the index register (44_memory_ops.md): the values written to I, the glyphs in memory as a load leaves
it, and the blocks that FX33, FX55 and FX65 move. -/

namespace Sys2Proof

/-- A configuration is well formed iff its font fits in memory, has 80 bytes, and MEM_INIT is in canonical form
(70_reset_and_hazards.md R331). -/
theorem Params.wf_iff {p : Params} :
    p.wf = true ↔ p.fontBase + 79 ≤ 0xFFF ∧ p.font.length = 80 ∧ Memory.wf (fun _ => 0x00) p.memInit = true := by
  simp only [Params.wf, Bool.and_eq_true, decide_eq_true_eq, and_assoc]

end Sys2Proof

namespace Sys2Proof.Machine

/-! The index register -/

/-- A byte adds to I modulo 2^16 (44_memory_ops.md R274). -/
theorem add_zextByte_toNat (w : Word) (b : Byte) : (w + zextByte b).toNat = (w.toNat + b.toNat) % 65536 := by
  rw [BitVec.toNat_add, zextByte, BitVec.toNat_setWidth_of_le (by decide)]

/-- The address of a glyph is cut to the 16 bits of I. -/
theorem State.fontAddr_toNat (s : State) (b : Byte) :
    (s.fontAddr b).toNat = (s.params.fontBase + 5 * (b.toNat % 16)) % 65536 := by
  rw [State.fontAddr, BitVec.toNat_ofNat, lowNibble_val]

/-- I after a block transfer (44_memory_ops.md R270, 00_scope.md R17). -/
theorem State.indexAfter_toNat (s : State) (x : RegIdx) :
    (s.indexAfter x).toNat = if s.params.indexIncrement then (s.iReg.toNat + x.val + 1) % 65536 else s.iReg.toNat := by
  unfold State.indexAfter
  split
  · rw [BitVec.toNat_add, BitVec.toNat_ofNat, Nat.add_mod_mod, Nat.add_assoc]
  · rfl

/-- Settles O37: each of the three writes I past its own word. -/
theorem indexInstructionsWriteI : Obligations.IndexInstructionsWriteI := by
  unfold Obligations.IndexInstructionsWriteI
  intro s x nnn
  exact ⟨⟨_, rfl, zext16_toNat nnn, rfl⟩, ⟨_, rfl, add_zextByte_toNat s.iReg (s.getV x), rfl⟩,
    ⟨_, rfl, s.fontAddr_toNat (s.getV x), rfl⟩, wordNNN_toNat 0xA nnn, wordXFF_toNat 0xF x 0x1E, wordXFF_toNat 0xF x 0x29⟩

/-! The font -/

/-- A load of an empty ROM leaves byte i of FONT at FONT_BASE + i (20_memory.md R77). -/
theorem State.launch_byteAt_font (p : Params) {i : Nat} (hi : i < p.font.length) :
    (State.launch p).byteAt (p.fontBase + i) = p.font.getD i 0x00 := by
  have hinit : (State.launch p).byteAt (p.fontBase + i) = initByte p (p.fontBase + i) := rfl
  rw [hinit, initByte, if_pos ⟨Nat.le_add_right .., Nat.add_lt_add_left hi _⟩, Nat.add_sub_cancel_left]

/-- Settles O38: the glyph's address is inside the font, where I's 16 bits cut nothing off. -/
theorem fontAddressPointsAtTheGlyph : Obligations.FontAddressPointsAtTheGlyph := by
  unfold Obligations.FontAddressPointsAtTheGlyph
  intro p b j hp hj
  obtain ⟨hbase, hlen, -⟩ := Params.wf_iff.1 hp
  have haddr : ((State.launch p).fontAddr b).toNat + j = p.fontBase + (5 * (b.toNat % 16) + j) := by
    have hparams : (State.launch p).params = p := rfl
    rw [State.fontAddr_toNat, hparams]
    omega
  rw [haddr, State.launch_byteAt_font p (by omega)]

/-! Blocks of bytes -/

/-- An instruction that leaves memory takes the fatal error with the address it names (60_exceptions.md R304). -/
theorem raises_of_outOfBounds {i : Instr} {s : State} {a : Nat} (h : exec i s = raiseOutOfBounds i a s) :
    Raises (exec i s) ⟨.memoryOutOfBounds, some s.pc, some (encode i), .addr a⟩ :=
  h ▸ raises_raise ..

/-- The digits of a byte are the bytes that hold its hundreds, tens and units. -/
theorem bcdDigits_toNat (b : Byte) :
    ((bcdDigits b).getD 0 0x00).toNat = b.toNat / 100 ∧ ((bcdDigits b).getD 1 0x00).toNat = b.toNat / 10 % 10 ∧
      ((bcdDigits b).getD 2 0x00).toNat = b.toNat % 10 := by
  have hb := b.isLt
  refine ⟨?_, ?_, ?_⟩ <;> exact Nat.mod_eq_of_lt (by omega)

/-- FX33 inside memory changes memory alone: the bytes from I on are the digits of Vx, and each other address reads as
before (44_memory_ops.md R272). -/
theorem exec_ldB_ok {s : State} (x : RegIdx) (hm : s.MemoryCanonical) (hb : s.iReg.toNat + 3 ≤ 4096) :
    ∃ t, exec (.ldB x) s = .next t ∧ t = { s with mem := t.mem, pc := s.pc + 2 } ∧
      ∀ a, t.byteAt a =
        if s.iReg.toNat ≤ a ∧ a < s.iReg.toNat + 3 then (bcdDigits (s.getV x)).getD (a - s.iReg.toNat) 0x00
        else s.byteAt a := by
  obtain ⟨m, hw, -, hread⟩ := writeBytes_ok (base := s.iReg.toNat) (bs := bcdDigits (s.getV x)) hm (.inr hb)
  exact ⟨{ s with mem := m, pc := s.pc + 2 }, by rw [exec, execLdB, hw]; rfl, rfl, hread⟩

/-- FX33 out of memory. -/
theorem exec_ldB_error {s : State} (x : RegIdx) (h : 4096 < s.iReg.toNat + 3) :
    exec (.ldB x) s = raiseOutOfBounds (.ldB x) (max s.iReg.toNat 0x1000) s := by
  rw [exec, execLdB, writeBytes_error s (bs := bcdDigits (s.getV x)) (List.cons_ne_nil _ _) h]

/-- Settles O39: the digit at distance d from I is the d-th byte of the block that FX33 stores. -/
theorem bcdStoresThreeDigits : Obligations.BcdStoresThreeDigits := by
  unfold Obligations.BcdStoresThreeDigits
  intro s x hm
  refine ⟨fun hb => ?inside, fun hb => raises_of_outOfBounds (exec_ldB_error x (by omega)), wordXFF_toNat 0xF x 0x33⟩
  obtain ⟨t, ht, hframe, hread⟩ := exec_ldB_ok x hm (by omega)
  have hdigit : ∀ d < 3, t.byteAt (s.iReg.toNat + d) = (bcdDigits (s.getV x)).getD d 0x00 := fun d hd => by
    rw [hread, if_pos (by omega), Nat.add_sub_cancel_left]
  obtain ⟨hhundreds, htens, hunits⟩ := bcdDigits_toNat (s.getV x)
  refine ⟨t, ht, ?_, ?_, ?_, fun a ha => by rw [hread, if_neg ha], hframe⟩
  · rw [← hhundreds, ← hdigit 0 (by decide), Nat.add_zero]
  · rw [hdigit 1 (by decide), htens]
  · rw [hdigit 2 (by decide), hunits]

/-- FX55 inside memory changes memory, and I by INDEX_INCREMENT; `exec_stRegs_byteAt` says what memory then holds. -/
theorem exec_stRegs_ok {s : State} (x : RegIdx) (hm : s.MemoryCanonical) (hb : s.iReg.toNat + x.val ≤ 0xFFF) :
    ∃ m, exec (.stRegs x) s = .next { s with mem := m, iReg := s.indexAfter x, pc := s.pc + 2 } := by
  have hlen := State.regsUpTo_length s x
  obtain ⟨m, hw, -⟩ := writeBytes_ok (base := s.iReg.toNat) (bs := s.regsUpTo x) hm (.inr (by omega))
  exact ⟨m, by rw [exec, execStRegs, hw]; rfl⟩

/-- FX55 out of memory. -/
theorem exec_stRegs_error {s : State} (x : RegIdx) (h : 4096 < s.iReg.toNat + (x.val + 1)) :
    exec (.stRegs x) s = raiseOutOfBounds (.stRegs x) (max s.iReg.toNat 0x1000) s := by
  have hlen := State.regsUpTo_length s x
  rw [exec, execStRegs, writeBytes_error s (List.ne_nil_of_length_eq_add_one hlen) (hlen ▸ h)]

/-- Settles O40: FX55 stores its block of registers, or leaves memory. -/
theorem storeRegistersCopiesToMemory : Obligations.StoreRegistersCopiesToMemory := by
  unfold Obligations.StoreRegistersCopiesToMemory
  intro s x hm
  refine ⟨fun hb => ?inside, fun hb => raises_of_outOfBounds (exec_stRegs_error x (by omega)), wordXFF_toNat 0xF x 0x55⟩
  obtain ⟨m, e⟩ := exec_stRegs_ok x hm hb
  exact ⟨_, e, fun k hk => exec_stRegs_stored hm hb e hk, fun a ha => by rw [exec_stRegs_byteAt hm hb e, if_neg ha],
    s.indexAfter_toNat x, rfl⟩

/-- A block of bytes read from memory, byte by byte. -/
theorem State.block_getD (s : State) (base n i : Nat) (d : Byte) :
    ((List.range' base n).map s.byteAt).getD i d = if i < n then s.byteAt (base + i) else d := by
  split
  · next h => rw [List.getD_eq_getElem _ _ (by simpa using h)]; simp
  · next h => rw [List.getD_eq_default _ _ (by simpa using h)]

/-- FX65 inside memory: Vk is the byte at I + k up to VX, and the registers above are as before (44_memory_ops.md R271). -/
theorem exec_ldRegs_getV {s t : State} {x : RegIdx} (hb : s.iReg.toNat + x.val ≤ 0xFFF)
    (h : exec (.ldRegs x) s = .next t) (k : RegIdx) :
    t.getV k = if k ≤ x then s.byteAt (s.iReg.toNat + k.val) else s.getV k := by
  rw [exec, execLdRegs_ok x (by omega)] at h
  cases h
  rw [State.setI_getV, State.loadRegs_getV, State.block_getD, State.advance_getV]
  simp only [Nat.lt_succ_iff, Fin.le_def]

/-- Settles O41: FX65 loads its block of registers, or leaves memory. -/
theorem loadRegistersCopiesFromMemory : Obligations.LoadRegistersCopiesFromMemory := by
  unfold Obligations.LoadRegistersCopiesFromMemory
  intro s x
  refine ⟨fun hb => ?inside, fun hb => raises_of_outOfBounds (execLdRegs_error x (by omega)), wordXFF_toNat 0xF x 0x65⟩
  have e : exec (.ldRegs x) s = .next _ := execLdRegs_ok x (by omega)
  exact ⟨_, e, fun k hk => by rw [exec_ldRegs_getV hb e, if_pos hk],
    fun k hk => by rw [exec_ldRegs_getV hb e, if_neg (not_le.2 hk)], s.indexAfter_toNat x, rfl⟩

/-- Settles O42, by O41 and what FX55 stores: FX65 reads at the old I the bytes that hold V0..VX. -/
theorem storeThenLoadRestoresRegisters : Obligations.StoreThenLoadRestoresRegisters := by
  unfold Obligations.StoreThenLoadRestoresRegisters
  intro s t u x hm hb hstore hmem hparams hi
  obtain ⟨w, hload, hregs, -⟩ := (loadRegistersCopiesFromMemory u x).1 (by rwa [hi])
  have hbytes : ∀ a, u.byteAt a = t.byteAt a := fun a => by rw [State.byteAt, hmem, hparams, ← State.byteAt]
  exact ⟨w, hload, fun k hk => by rw [hregs k hk, hi, hbytes, exec_stRegs_stored hm hb hstore hk]⟩

end Sys2Proof.Machine

/-! Errors and the halted core (60_exceptions.md): what can halt a running core, what a halted one still does, and that from
a good state every port operation has its next state. -/

namespace Sys2Proof

/-- A word that the decoder rejects is illegal: a row that selected it would decode it (30_encoding.md R105). -/
theorem Word.not_legal_of_decodeWord_error {op : Word} {e : DecodeError} (h : decodeWord op = .error e) :
    Word.legal op = false := by
  rcases hl : Word.legal op with _ | _
  · rfl
  · obtain ⟨r, hr, hsel⟩ := List.any_eq_true.1 hl
    obtain ⟨i, hi⟩ := (decodeFollowsTheOpcodeMap op).1.2 ⟨r, hr, eq_of_beq hsel⟩
    rw [h] at hi
    cases hi

/-- Instruction i moves a block of len bytes from I on (60_exceptions.md R304). -/
def Instr.MovesBlock (i : Instr) (len : Nat) : Prop :=
  (∃ x y n, i = .drw x y n ∧ len = n.toNat) ∨ (∃ x, i = .ldB x ∧ len = 3) ∨
    (∃ x, i = .stRegs x ∧ len = x.val + 1) ∨ (∃ x, i = .ldRegs x ∧ len = x.val + 1)

end Sys2Proof

namespace Sys2Proof.Machine

/-! The causes of an error -/

/-- The causes by which an instruction halts a core in state s, each with the kind and the last place of its record
(60_exceptions.md R302–R304). `exec_mode` says that there are no others. -/
inductive ExecCause (s : State) : Instr → ErrorKind → ErrorInfo → Prop where
  /-- 2NNN with SP = 16 (R302). -/
  | overflow (nnn : Addr12) (hsp : s.sp = 16) : ExecCause s (.call nnn) .stackOverflow .nothing
  /-- 00EE with SP = 0 (R303). -/
  | underflow (hsp : s.sp = 0) : ExecCause s .ret .stackUnderflow .nothing
  /-- A nonempty block that ends above 0xFFF (R304). -/
  | block {i : Instr} {len : Nat} (hi : i.MovesBlock len) (hpos : 0 < len) (hout : 4096 < s.iReg.toNat + len) :
    ExecCause s i .memoryOutOfBounds (.addr (max s.iReg.toNat 0x1000))

/-- 2NNN keeps the mode unless SP = 16. -/
theorem execCall_mode {s t : State} {nnn : Addr12} (hsp : s.sp ≠ 16) (h : execCall nnn s = .next t) : t.mode = s.mode := by
  rw [execCall, if_neg hsp] at h
  split at h
  · next u hu =>
    unfold State.push at hu
    split at hu <;> cases hu
    cases h
    rfl
  · cases h

/-- 00EE keeps the mode unless SP = 0. -/
theorem execRet_mode {s t : State} (hsp : s.sp ≠ 0) (h : execRet s = .next t) : t.mode = s.mode := by
  rw [execRet, if_neg hsp] at h
  split at h
  · next u hu =>
    unfold State.popPc at hu
    split at hu <;> cases hu
    cases h
    rfl
  · cases h

/-- What any instruction does to the mode, whatever the state: it keeps it, suspends the core in FX0A, or halts it for one of
the causes, with the record of that cause. -/
theorem exec_mode {i : Instr} {s t : State} (h : exec i s = .next t) :
    t.mode = s.mode ∨ (∃ x, t = s.suspend x) ∨
      ∃ kind info, ExecCause s i kind info ∧ t = s.halt ⟨kind, some s.pc, some (encode i), info⟩ := by
  cases i
  case call nnn =>
    by_cases hsp : s.sp = 16
    · rw [exec, execCall_overflow nnn hsp] at h
      cases h
      exact .inr (.inr ⟨_, _, .overflow nnn hsp, rfl⟩)
    · exact .inl (execCall_mode hsp h)
  case ret =>
    by_cases hsp : s.sp = 0
    · rw [exec, execRet_underflow hsp] at h
      cases h
      exact .inr (.inr ⟨_, _, .underflow hsp, rfl⟩)
    · exact .inl (execRet_mode hsp h)
  case drw x y n =>
    rcases execDrw_cases s x y n with ⟨hpos, hout, e⟩ | ⟨-, _, _, e⟩ <;> (rw [exec, e] at h; cases h)
    · exact .inr (.inr ⟨_, _, .block (.inl ⟨x, y, n, rfl, rfl⟩) hpos hout, rfl⟩)
    · exact .inl rfl
  case ldB x =>
    rcases execLdB_cases s x with ⟨hout, e⟩ | ⟨-, _, -, e⟩ <;> (rw [exec, e] at h; cases h)
    · exact .inr (.inr ⟨_, _, .block (.inr (.inl ⟨x, rfl, rfl⟩)) (by decide) hout, rfl⟩)
    · exact .inl rfl
  case stRegs x =>
    rcases execStRegs_cases s x with ⟨hout, e⟩ | ⟨-, _, -, e⟩ <;> (rw [exec, e] at h; cases h)
    · exact .inr (.inr ⟨_, _, .block (.inr (.inr (.inl ⟨x, rfl, rfl⟩))) (Nat.succ_pos _) hout, rfl⟩)
    · exact .inl rfl
  case ldRegs x =>
    rcases execLdRegs_cases s x with ⟨hout, e⟩ | ⟨-, e⟩ <;> (rw [exec, e] at h; cases h)
    · exact .inr (.inr ⟨_, _, .block (.inr (.inr (.inr ⟨x, rfl, rfl⟩))) (Nat.succ_pos _) hout, rfl⟩)
    · exact .inl rfl
  case ldVxK x =>
    rcases execLdVxK_cases x s with ⟨-, k, u, hu, e⟩ | ⟨-, e⟩ <;> (rw [exec, e] at h; cases h)
    · obtain ⟨n, rfl⟩ := State.anyPressed_state hu
      exact .inl rfl
    · exact .inr (.inl ⟨x, rfl⟩)
  case orReg | andReg | xorReg => cases h; exact .inl (State.setLogicResult_mode ..)
  case seImm | sneImm | seReg | sneReg | skp | sknp => cases h; exact .inl (State.skipIf_mode ..)
  all_goals cases h; exact .inl rfl

/-- An instruction that halts a core that was not halted does so for one of the causes. -/
theorem exec_halts {i : Instr} {s t : State} (hs : s.mode ≠ .halted) (h : exec i s = .next t) (ht : t.mode = .halted) :
    ∃ kind info, ExecCause s i kind info ∧ t = s.halt ⟨kind, some s.pc, some (encode i), info⟩ := by
  rcases exec_mode h with hm | ⟨x, rfl⟩ | hc
  · exact absurd (hm.symm.trans ht) hs
  · cases ht
  · exact hc

/-- Settles O10: a running core halts at its fetch, at an illegal word, or by a cause of the instruction it executes. -/
theorem errorsComeOnlyFromTheirCauses : Obligations.ErrorsComeOnlyFromTheirCauses := by
  unfold Obligations.ErrorsComeOnlyFromTheirCauses
  intro s t hm h ht
  by_cases hb : s.pc.toNat + 1 > 0xFFF
  · rw [step_fetch_error hm (fetch_error s hb)] at h
    cases h
    exact .inl ⟨hb, rfl⟩
  · obtain ⟨op, hf⟩ : ∃ op, fetch s = .ok op := ⟨_, fetch_ok s (Nat.le_of_not_gt hb)⟩
    refine .inr ⟨op, hf, ?_⟩
    rw [step_fetched hm hf] at h
    rcases hd : decodeWord op with e | i
    · have hl := Word.not_legal_of_decodeWord_error hd
      rw [runWord_illegal s hl] at h
      cases h
      exact .inl ⟨hl, rfl⟩
    · rw [runWord_decoded s hd] at h
      obtain ⟨kind, info, hc, rfl⟩ := exec_halts (by simp [hm]) h ht
      rw [encode_of_decodeWord hd]
      cases hc with
      | overflow nnn hsp => exact .inr (.inl ⟨nnn, rfl, hsp, rfl⟩)
      | underflow hsp => exact .inr (.inr (.inl ⟨rfl, hsp, rfl⟩))
      | block hi hpos hout => exact .inr (.inr (.inr ⟨i, _, rfl, hi, hpos, by omega, rfl⟩))

/-! The halted core -/

/-- A halted core stays halted through every port operation but a load (60_exceptions.md R306). -/
theorem port_halted {op : PortOp} {s t : State} (hm : s.mode = .halted) (h : port op s = .next t) :
    t.mode = .halted ∨ ∃ rom, op = .load rom := by
  cases op with
  | load rom => exact .inr ⟨rom, rfl⟩
  | step => rw [port, step_halted hm] at h; cases h; exact .inl hm
  | tick => cases h; rw [tick_halted hm]; exact .inl hm
  | setKey k pressed => cases h; rw [setKey_eq]; exact .inl hm
  | display => cases h; exact .inl hm
  | status => cases h; exact .inl hm

/-- Settles O9, port by port. -/
theorem haltedUntilLoad : Obligations.HaltedUntilLoad := by
  unfold Obligations.HaltedUntilLoad
  intro s e hm he
  refine ⟨step_halted hm, ?fatal, ?tick, rfl, fun k p => ?setKey, rfl, ?status, fun rom hp hr => ?load,
    fun op t h ht => ?leaves⟩
  case fatal => simp only [portAnswer, State.outcome, hm, he]
  case tick => rw [port, tick_halted hm]
  case setKey =>
    refine ⟨pressKey k p s, by rw [port, setKey_inside], ?_⟩
    rw [pressKey_isPressed, if_pos rfl]
  case status => simp only [portAnswer, status, hm, he, State.tone]
  case load =>
    obtain ⟨m, hload, -⟩ := load_ok rom hp hr
    exact ⟨_, hload, rfl⟩
  case leaves => exact (port_halted hm h).resolve_left ht

/-! The invariant under every port -/

/-- A load that fits leaves a state that meets the invariant: its memory is the only part that depends on the ROM. -/
theorem inv_of_load {p : Params} {m : Memory} (hm : Memory.wf (initByte p) m = true) (keys : BitVec 16) (draws : Nat) :
    ({ State.launch p with mem := m, keys := keys, draws := draws } : State).Inv where
  memory := hm
  record := by simp [State.launch]
  depth _ := Nat.zero_le 16
  levelEvent _ := rfl
  runningEvent _ := rfl
  waiting x hx := by cases hx

/-- A tick keeps the invariant, which says nothing of the timers. -/
theorem State.Inv.tick {s : State} (h : s.Inv) : (tick s).Inv := by
  obtain ⟨memory, record, depth, levelEvent, runningEvent, waiting⟩ := h
  rw [tick_eq]
  exact ⟨memory, record, depth, levelEvent, runningEvent, waiting⟩

/-- A write of the latch keeps the invariant: a press is recorded only in a PRESS_EDGE wait. -/
theorem State.Inv.pressKey {s : State} (h : s.Inv) (k : KeyIdx) (p : Bool) : (pressKey k p s).Inv where
  memory := h.memory
  record := h.record
  depth := h.depth
  levelEvent ht := by
    have hn : ¬ s.RecordsPress k p := fun hr => by simpa using hr.1.symm.trans ht
    exact (keyEventAfter_of_not_recordsPress hn).trans (h.levelEvent ht)
  runningEvent hm := by
    have hn : ¬ s.RecordsPress k p := fun ⟨_, ⟨x, hx⟩, _⟩ => by simpa using hx.symm.trans hm
    exact (keyEventAfter_of_not_recordsPress hn).trans (h.runningEvent hm)
  waiting := h.waiting

/-- set_key keeps the invariant, with a key of the keypad or not. -/
theorem State.Inv.setKey {s : State} (h : s.Inv) (k : Int) (p : Bool) : (setKey k p s).1.Inv := by
  unfold Machine.setKey
  split
  · exact h.pressKey _ p
  · exact h

/-- Every port operation keeps the invariant. -/
theorem State.Inv.port {op : PortOp} {s t : State} (h : s.Inv) (hp : port op s = .next t) : t.Inv := by
  cases op with
  | load rom =>
    rcases load_cases rom s with ⟨-, e⟩ | ⟨-, -, e⟩ | ⟨-, -, m, hm, e⟩ <;> rw [Machine.port, e] at hp <;> cases hp
    · exact h.halt _
    · exact inv_of_load hm s.keys s.draws
  | step => exact stepKeepsTheInvariant s t h hp
  | tick => cases hp; exact h.tick
  | setKey k pressed => cases hp; exact h.setKey k pressed
  | display => cases hp; exact h
  | status => cases hp; exact h

/-! Every operation has its next state -/

/-- With SP ≤ 16 every instruction has its next state, for an error is one too (60_exceptions.md R305, R309). -/
theorem exec_next (i : Instr) {s : State} (hsp : s.sp.toNat ≤ 16) : ∃ t, exec i s = .next t := by
  cases i
  case call nnn => rcases execCall_cases s nnn hsp with ⟨-, e⟩ | ⟨_, e⟩ <;> exact ⟨_, e⟩
  case ret => rcases execRet_cases s hsp with ⟨-, e⟩ | ⟨-, _, e⟩ <;> exact ⟨_, e⟩
  case drw x y n => rcases execDrw_cases s x y n with ⟨-, -, e⟩ | ⟨-, _, _, e⟩ <;> exact ⟨_, e⟩
  case ldB x => rcases execLdB_cases s x with ⟨-, e⟩ | ⟨-, _, -, e⟩ <;> exact ⟨_, e⟩
  case stRegs x => rcases execStRegs_cases s x with ⟨-, e⟩ | ⟨-, _, -, e⟩ <;> exact ⟨_, e⟩
  case ldRegs x => rcases execLdRegs_cases s x with ⟨-, e⟩ | ⟨-, e⟩ <;> exact ⟨_, e⟩
  case ldVxK x => rcases execLdVxK_cases x s with ⟨-, _, _, -, e⟩ | ⟨-, e⟩ <;> exact ⟨_, e⟩
  all_goals exact ⟨_, rfl⟩

/-- A step from a state that meets the invariant has its next state. -/
theorem State.Inv.step_next {s : State} (h : s.Inv) : ∃ t, step s = .next t := by
  rcases step_cases s with ⟨-, e⟩ | ⟨x, -, e⟩ | ⟨-, a, -, e⟩ | ⟨-, op, er, -, -, e⟩ | ⟨hm, op, i, -, -, e⟩ <;> rw [e]
  · exact ⟨_, rfl⟩
  · rcases awaitKey_cases x s with ⟨-, _, _, -, e⟩ | ⟨-, -, e⟩ | ⟨-, _, -, e⟩ | ⟨-, -, e⟩ <;> exact ⟨_, e⟩
  · exact ⟨_, rfl⟩
  · exact ⟨_, rfl⟩
  · exact exec_next i (h.depth (by simp [hm]))

/-- A load with a well-formed configuration has its next state, whatever the length of the ROM (60_exceptions.md R307). -/
theorem load_next (rom : List Byte) {s : State} (hp : s.params.wf = true) : ∃ t, load rom s = .next t := by
  rcases load_cases rom s with ⟨hf, -⟩ | ⟨-, -, e⟩ | ⟨-, -, _, -, e⟩
  · rw [hp] at hf; cases hf
  · exact ⟨_, e⟩
  · exact ⟨_, e⟩

/-- Every port operation from a good state with a well-formed configuration has its next state. -/
theorem State.Inv.port_next {s : State} (h : s.Inv) (hp : s.params.wf = true) (op : PortOp) :
    ∃ t, Machine.port op s = .next t := by
  cases op with
  | load rom => exact load_next rom hp
  | step => exact h.step_next
  | tick | setKey | display | status => exact ⟨_, rfl⟩

/-- Settles O56, by induction on the list of port operations: each has its next state, which is good again. -/
theorem noScheduleStopsTheModel : Obligations.NoScheduleStopsTheModel := by
  unfold Obligations.NoScheduleStopsTheModel
  intro ops
  induction ops with
  | nil => exact fun s _ _ => ⟨s, rfl⟩
  | cons op ops ih =>
    intro s h hp
    obtain ⟨u, hu⟩ := h.port_next hp op
    obtain ⟨t, ht⟩ := ih u (h.port hu) ((port_params hu).symm ▸ hp)
    exact ⟨t, by rw [portRun, hu]; exact ht⟩

end Sys2Proof.Machine

/-! Reset (70_reset_and_hazards.md R330–R334) and the invariant over every host schedule (R350). -/

namespace Sys2Proof.Machine

/-- Settles O55, by induction on the list of port operations: each of them keeps the invariant. -/
theorem everyHostScheduleKeepsTheInvariant : Obligations.EveryHostScheduleKeepsTheInvariant := by
  unfold Obligations.EveryHostScheduleKeepsTheInvariant
  intro ops
  induction ops with
  | nil => intro s t hs h; cases h; exact hs
  | cons op ops ih =>
    intro s t hs h
    unfold portRun at h
    split at h
    · next u hu => exact ih u t (hs.port hu) h
    · cases h
    · cases h

/-! The state that a load of an empty ROM leaves -/

@[simp] theorem State.launch_getV (p : Params) (k : RegIdx) : (State.launch p).getV k = 0x00 := by
  simp [State.getV, State.launch]

@[simp] theorem State.launch_stack_get (p : Params) (j : Fin 16) : (State.launch p).stack[j] = 0x0000 := by
  simp [State.launch]

@[simp] theorem State.launch_pixel (p : Params) (r : RowIdx) (c : ColIdx) :
    Display.pixel (State.launch p).disp r c = false :=
  Display.clear_pixel r c

@[simp] theorem State.launch_isPressed (p : Params) (k : KeyIdx) : (State.launch p).isPressed k = false :=
  BitVec.getLsbD_zero

/-- An address outside the ROM reads as FONT over MEM_INIT, the font being its 80 bytes from FONT_BASE on
(70_reset_and_hazards.md R330, R331). -/
theorem initByte_of_wf {p : Params} (hp : p.wf = true) (a : Nat) :
    initByte p a =
      if p.fontBase ≤ a ∧ a ≤ p.fontBase + 79 then p.font.getD (a - p.fontBase) 0x00 else memInitByte p a := by
  obtain ⟨-, hlen, -⟩ := Params.wf_iff.1 hp
  have hend : a < p.fontBase + p.font.length ↔ a ≤ p.fontBase + 79 := by omega
  simp only [initByte, memInitByte, hend]

/-- A load of an oversize ROM halts the core with its length (60_exceptions.md R307). -/
theorem load_oversize {rom : List Byte} {s : State} (hp : s.params.wf = true) (hr : rom.length > 3584) :
    load rom s = .next (s.halt ⟨.romTooLarge, none, none, .romLength rom.length⟩) := by
  rw [load, if_pos hp, if_pos hr]

/-- A load with an ill-formed configuration is refused (70_reset_and_hazards.md R331). -/
theorem load_refused (rom : List Byte) {s : State} (hp : s.params.wf ≠ true) :
    load rom s = .refused .badConfiguration := by
  rw [load, if_neg hp]

/-- Settles O50: a load that fits leaves the launch state with the keys kept and the ROM over its memory. -/
theorem loadResetsTheCore : Obligations.LoadResetsTheCore := by
  unfold Obligations.LoadResetsTheCore
  intro rom s hp
  refine ⟨fun hr => ⟨_, load_oversize hp hr, rfl, rfl⟩, fun hr => ?_⟩
  obtain ⟨m, hload, -, hmem⟩ := load_ok rom hp hr
  refine ⟨_, hload, rfl, fun a _ => ?_, State.launch_getV s.params, rfl, rfl, rfl,
    State.launch_stack_get s.params, rfl, rfl, State.launch_pixel s.params, rfl, rfl, rfl, rfl, rfl⟩
  rw [← initByte_of_wf hp]
  exact hmem a

/-- Settles O51, part by part. -/
theorem resetValues : Obligations.ResetValues := by
  unfold Obligations.ResetValues
  refine ⟨fun p s hs => ?_, rfl⟩
  subst hs
  exact ⟨State.launch_getV p, rfl, rfl, rfl, State.launch_stack_get p, rfl, rfl, State.launch_pixel p,
    State.launch_isPressed p, rfl, rfl, rfl, rfl, rfl⟩

/-- Settles O52: a font that leaves memory makes the configuration ill formed. -/
theorem badFontBaseIsRefused : Obligations.BadFontBaseIsRefused := by
  unfold Obligations.BadFontBaseIsRefused
  intro rom s hfont
  have hp : s.params.wf ≠ true := fun hp => by
    obtain ⟨hbase, -⟩ := Params.wf_iff.1 hp
    omega
  exact load_refused rom hp

/-- The launch state meets the invariant: its memory lists nothing. -/
theorem State.launch_inv (p : Params) : (State.launch p).Inv :=
  inv_of_load (m := []) rfl 0 0

/-- Settles O53, for the launch state of any parameters and so for the default ones. -/
theorem resetMeetsTheInvariant : Obligations.ResetMeetsTheInvariant :=
  ⟨State.launch_inv, State.launch_inv Params.standard⟩

end Sys2Proof.Machine
